-- ==== Sys2Proof/Word.lean ====
section
/-! DEFINITION. The words of the block: bit vectors of the fixed widths of 00_scope.md rule R7. -/

namespace Sys2Proof

/-- A byte of stream data (00_scope.md R7: "Byte data are 8-bit"). -/
abbrev Byte := BitVec 8

/-- A 64-bit word: absolute sequence numbers, stream indices, times, counters, operand ports and
RES (00_scope.md R7, 30_encoding.md R71). -/
abbrev Word := BitVec 64

/-- A 32-bit wire sequence number or initial sequence number (00_scope.md R7). -/
abbrev Wire := BitVec 32

/-- The 16-bit command word CMD (30_encoding.md R71, R72). -/
abbrev CmdWord := BitVec 16

end Sys2Proof
end

