-- ==== Sys2Proof/Config.lean ====
section
/-! DEFINITION. The nine configuration values of 00_scope.md rule R6: the five that reset samples
(`Config`) and the four structural parameters that are fixed for a block (`Params`). No value is fixed
here for a claim: every state carries its own `Config` and `Params`, so a statement about every state
is a statement about every configuration. -/

namespace Sys2Proof

/-- `UNWRAP_TIE`: which candidate `unwrap` returns on an exact tie (40_codec.md R89). The source
leaves it open, so it is a parameter of the block (93_implementation_defined.md, row 1). -/
inductive UnwrapTie where
  | lower
  | upper
deriving DecidableEq, Repr

/-- The configuration values that reset samples and that stay constant until the next reset
(00_scope.md R6, 10_state.md R19). -/
structure Config where
  /-- `CFG_CAPACITY` (C): reassembly window size in bytes. -/
  capacity : Word
  /-- `CFG_INIT_RTO`: initial retransmission timeout, in the host's time unit. -/
  initRto : Word
  /-- `CFG_MAX_PAYLOAD`: maximum payload bytes per new segment. -/
  maxPayload : Word
  /-- `CFG_MAX_RETX`: consecutive-retransmission threshold read by RETX_EXCEEDED. -/
  maxRetx : Word
  /-- `CFG_ISN`: the sender's initial sequence number. -/
  isn : Wire
deriving DecidableEq, Repr

/-- The structural parameters, fixed for a given block (00_scope.md R6, 10_state.md R19). -/
structure Params where
  /-- `WIN_BITS`: width of the advertised-window operand. R6 lists 16 as its only legal value; another
  one can be given, and is refused (`configLegal`). -/
  winBits : Nat
  /-- `UNWRAP_TIE`. -/
  unwrapTie : UnwrapTie
  /-- `Q_DEPTH`: outstanding-queue entries; `none` is ∞. 64 bits, because RDREG CFG_Q_DEPTH
  returns it in 63:0 (10_state.md R47). -/
  qDepth : Option Word
  /-- `DATA_MAX`: longest DATA operand RA_INSERT accepts; `none` is ∞. -/
  dataMax : Option Nat
deriving DecidableEq, Repr

/-- The configuration of the spec's own vectors (95_test_vectors.md, "Unless a vector says
otherwise"). DESIGN CHOICE (log 1): the source gives no values, so the model's reset state takes
these. -/
def Config.standard : Config where
  capacity := 8
  initRto := 1000
  maxPayload := 1000
  maxRetx := 8
  isn := 0

/-- The one legal `WIN_BITS` and the defaults of 92_eei_decisions.md D12, D25 and D19. -/
def Params.standard : Params where
  winBits := 16
  unwrapTie := .lower
  qDepth := none
  dataMax := none

end Sys2Proof
end

