-- ==== Sys2Proof/Syntax.lean ====
section
/-! DEFINITION. The nine commands of 30_encoding.md rule R76 (one constructor per row of
spec/opcode_table.json) and the registers of 10_state.md rule R47. The operand values OPA, OPB, OPC
and DATA are ports, not fields of the command word (30_encoding.md R78), so they stand in the
machine's state. -/

namespace Sys2Proof

/-- The registers RDREG reads, by the names of 10_state.md rule R47. -/
inductive Reg where
  | cfgCapacity
  | cfgInitRto
  | cfgMaxPayload
  | cfgMaxRetx
  | cfgIsn
  | cfgQDepth
  | raBase
  | raUnasm
  | raStatus
  | raEofIndex
  | sndState
  | sndNext
  | sndNextWire
  | sndBif
  | sndWindow
  | sndQlen
  | sndStatus
  | tmrRto
  | tmrElapsed
  | tmrConsec
deriving DecidableEq, Repr

/-- A command, as its CMD word gives it. -/
inductive Instr where
  /-- NOP, opcode 0x00 (44_control.md R146). -/
  | nop
  /-- SNC_WRAP, opcode 0x01 (40_codec.md R91). -/
  | sncWrap
  /-- SNC_UNWRAP, opcode 0x02 (40_codec.md R92). -/
  | sncUnwrap
  /-- RA_INSERT, opcode 0x10, with LAST = CMD[8] (41_reassembler.md R96). -/
  | raInsert (last : Bool)
  /-- SND_FILL, opcode 0x20 (42_sender.md R119). -/
  | sndFill
  /-- SND_ACK, opcode 0x21 (42_sender.md R126). -/
  | sndAck
  /-- SND_TICK, opcode 0x22 (43_timer.md R134). -/
  | sndTick
  /-- SND_EMPTY, opcode 0x23 (42_sender.md R131). -/
  | sndEmpty
  /-- RDREG, opcode 0x30, with REGNO = CMD[15:8] (44_control.md R147). -/
  | rdreg (regno : BitVec 8)
deriving DecidableEq, Repr

end Sys2Proof
end

