-- ==== Sys2Proof/WellFormed.lean ====
section
/-! DEFINITION. Which commands are well formed. Every field of every command is exactly as wide as
its encoding, so the one check is RDREG's: its REGNO is a number of the register map. -/

namespace Sys2Proof

/-- The register numbers 10_state.md rule R47 lists; every other number is reserved. -/
def definedRegnos : List (BitVec 8) :=
  [0x00, 0x01, 0x02, 0x03, 0x04, 0x05,
   0x10, 0x11, 0x12, 0x13,
   0x20, 0x21, 0x22, 0x23, 0x24, 0x25, 0x26,
   0x28, 0x29, 0x2A]

/-- A command that 30_encoding.md does not call reserved (R81): RDREG names a listed register. -/
def Instr.wellFormed : Instr → Bool
  | .nop => true
  | .sncWrap => true
  | .sncUnwrap => true
  | .raInsert _ => true
  | .sndFill => true
  | .sndAck => true
  | .sndTick => true
  | .sndEmpty => true
  | .rdreg regno => definedRegnos.contains regno

end Sys2Proof
end

