-- ==== Sys2Proof/Decode.lean ====
section
/-! DEFINITION. Decoding of the 16-bit command word, total on every word and rejecting by name
(30_encoding.md rules R73 to R76, R81, R82), and the encoder of the same tables. A command word
crosses the interface as one whole word, so there is no byte order (20_memory.md R57). -/

namespace Sys2Proof

/-- Why a command word is reserved (30_encoding.md R81). The block answers the same ILLEGAL for
each and reports no cause (60_exceptions.md R150, R154). -/
inductive DecodeError where
  /-- An OPCODE that is not in the map of R76. -/
  | reservedOpcode (op : BitVec 8)
  /-- A must-be-zero bit of CMD[15:8] is set. -/
  | reservedBits (modifier : BitVec 8)
  /-- RDREG of a number that is not in the map of 10_state.md R47. -/
  | reservedRegister (regno : BitVec 8)
deriving DecidableEq, Repr

/-- The register map of 10_state.md rule R47, from number to register. -/
def regOfNumber? (regno : BitVec 8) : Option Reg :=
  if regno = 0x00 then some .cfgCapacity
  else if regno = 0x01 then some .cfgInitRto
  else if regno = 0x02 then some .cfgMaxPayload
  else if regno = 0x03 then some .cfgMaxRetx
  else if regno = 0x04 then some .cfgIsn
  else if regno = 0x05 then some .cfgQDepth
  else if regno = 0x10 then some .raBase
  else if regno = 0x11 then some .raUnasm
  else if regno = 0x12 then some .raStatus
  else if regno = 0x13 then some .raEofIndex
  else if regno = 0x20 then some .sndState
  else if regno = 0x21 then some .sndNext
  else if regno = 0x22 then some .sndNextWire
  else if regno = 0x23 then some .sndBif
  else if regno = 0x24 then some .sndWindow
  else if regno = 0x25 then some .sndQlen
  else if regno = 0x26 then some .sndStatus
  else if regno = 0x28 then some .tmrRto
  else if regno = 0x29 then some .tmrElapsed
  else if regno = 0x2A then some .tmrConsec
  else none

/-- Format N (30_encoding.md R73): MOD = CMD[15:8] must be 0. -/
def decodePlain (modifier : BitVec 8) (i : Instr) : Except DecodeError Instr :=
  if modifier = 0 then .ok i else .error (.reservedBits modifier)

/-- Format I (30_encoding.md R74): CMD[8] is LAST and CMD[15:9] must be 0. -/
def decodeInsert (modifier : BitVec 8) : Except DecodeError Instr :=
  if modifier.extractLsb' 1 7 = 0 then .ok (.raInsert (modifier.getLsbD 0))
  else .error (.reservedBits modifier)

/-- Format R (30_encoding.md R75): CMD[15:8] is a listed REGNO. -/
def decodeRegister (regno : BitVec 8) : Except DecodeError Instr :=
  match regOfNumber? regno with
  | some _ => .ok (.rdreg regno)
  | none => .error (.reservedRegister regno)

/-- Decoding, total on every 16-bit word (30_encoding.md R82). -/
def decode (cmd : CmdWord) : Except DecodeError Instr :=
  let op := cmd.extractLsb' 0 8
  let modifier := cmd.extractLsb' 8 8
  if op = 0x00 then decodePlain modifier .nop
  else if op = 0x01 then decodePlain modifier .sncWrap
  else if op = 0x02 then decodePlain modifier .sncUnwrap
  else if op = 0x10 then decodeInsert modifier
  else if op = 0x20 then decodePlain modifier .sndFill
  else if op = 0x21 then decodePlain modifier .sndAck
  else if op = 0x22 then decodePlain modifier .sndTick
  else if op = 0x23 then decodePlain modifier .sndEmpty
  else if op = 0x30 then decodeRegister modifier
  else .error (.reservedOpcode op)

/-- The opcode of a command (30_encoding.md R76). -/
def opcode : Instr → BitVec 8
  | .nop => 0x00
  | .sncWrap => 0x01
  | .sncUnwrap => 0x02
  | .raInsert _ => 0x10
  | .sndFill => 0x20
  | .sndAck => 0x21
  | .sndTick => 0x22
  | .sndEmpty => 0x23
  | .rdreg _ => 0x30

/-- CMD[15:8] of a command: 0 in format N, LAST in bit 8 in format I, REGNO in format R
(30_encoding.md R73 to R75). -/
def modifierBits : Instr → BitVec 8
  | .nop => 0
  | .sncWrap => 0
  | .sncUnwrap => 0
  | .raInsert last => BitVec.zeroExtend 8 (BitVec.ofBool last)
  | .sndFill => 0
  | .sndAck => 0
  | .sndTick => 0
  | .sndEmpty => 0
  | .rdreg regno => regno

/-- The command word of a command: the concatenation of its CMD[15:8] and its opcode. -/
def encode (i : Instr) : CmdWord :=
  modifierBits i ++ opcode i

/-- The instruction the decoder reads from the table's word `w` of `nbits` bits. Every command
word is exactly 16 bits (30_encoding.md R72); the bits above `nbits` are 0. -/
def decodeTableWord (nbits w : Nat) : Option Instr :=
  (decode (BitVec.ofNat 16 (w % 2 ^ nbits))).toOption

end Sys2Proof
end

