-- ==== Sys2Proof/Machine/State.lean ====
section
/-! DEFINITION. The state of the block (10_state.md, complete by rule R51), the collaborators a
model represents beside it (10_state.md R50), the command interface (30_encoding.md R71) and what
the host will do next (00_scope.md R13). All of it is plain data. -/

namespace Sys2Proof.Machine

open Sys2Proof

/-- The block has no fault: "no fault, no hang, no draw" (00_scope.md R14). A badly encoded
command is answered ILLEGAL, which is a next state (60_exceptions.md R150, R153). So this type has
no constructor, and no step of the model ends in a fault. -/
inductive Fault where
deriving DecidableEq, Repr

/-- Why the model gives a step no meaning. Apart from `notModelled`, each is a host duty that
the run breaks (00_scope.md R6, 10_state.md R50, 70_reset_and_hazards.md R168: "A run that breaks one
is outside the spec: the model gives it no meaning and refuses it."). -/
inductive Refusal where
  /-- Raised by an arm of `exec` without a meaning. No arm of this model raises it. Safe. -/
  | notModelled (mnemonic : String)
  /-- Raised by a command or a reset under a configuration outside the legal values of 00_scope.md
  R6. Safe: the spec gives such a run no meaning. -/
  | illegalConfiguration
  /-- Raised by a command or a reset when the output sink's capacity is below CFG_CAPACITY
  (20_memory.md R58). Safe. -/
  | sinkTooSmall
  /-- Raised by the host writing a byte to the input source after latching its end (20_memory.md
  R61). Safe. -/
  | sourceWriteAfterEnd
  /-- Raised by the application reading more bytes than the output sink holds (10_state.md R50:
  the count of read bytes is never above the number of bytes written). Safe. -/
  | sinkReadBeyond
deriving DecidableEq, Repr

/-- STATUS, one bit: OK = 0, ILLEGAL = 1 (30_encoding.md R71). -/
inductive Status where
  | ok
  | illegal
deriving DecidableEq, Repr

/-- The block's answer to a command (30_encoding.md R71). -/
structure Answer where
  status : Status
  res : Word
deriving DecidableEq, Repr

/-- One command transaction as the host presents it (30_encoding.md R71). -/
structure Command where
  cmd : CmdWord
  opa : Word
  opb : Word
  opc : Word
  data : List Byte
deriving DecidableEq, Repr

/-- `snd_state` (10_state.md R32). -/
inductive SndState where
  | closed
  | synSent
  | synAcked
  | finSent
deriving DecidableEq, Repr

/-- An outstanding-queue entry (10_state.md R37); its `len` is computed (`Entry.len`). -/
structure Entry where
  start : Word
  syn : Bool
  fin : Bool
  payload : List Byte
deriving DecidableEq, Repr

/-- The tag of a segment-output record (20_memory.md R62). -/
inductive SegKind where
  | new
  | retx
  | empty
deriving DecidableEq, Repr

/-- A segment-output record (20_memory.md R62, R63). `ack` and `rst` are the header flags a record
leaves the block with, always 0; the block drives no ack number and no window. -/
structure Record where
  kind : SegKind
  seqno : Wire
  start : Word
  syn : Bool
  fin : Bool
  payload : List Byte
  len : Word
  ack : Bool
  rst : Bool
deriving DecidableEq, Repr

/-- An event of the output-sink trace (20_memory.md R58, R59). -/
inductive SinkEvent where
  /-- `SinkWrite(b)`. -/
  | byte (b : Byte)
  /-- `SinkEnd()`. -/
  | eof
deriving DecidableEq, Repr

/-- The output sink, outside the block (10_state.md R50): its trace, oldest event first, the count
`R` of bytes the application has read, and its fixed capacity (20_memory.md R58). -/
structure Sink where
  events : List SinkEvent
  readCount : Nat
  capacity : Nat
deriving DecidableEq, Repr

/-- The input source, outside the block (10_state.md R50, 20_memory.md R60): a byte queue, first
byte next, and an end latch. -/
structure Source where
  bytes : List Byte
  ended : Bool
deriving DecidableEq, Repr

/-- What the host does between command boundaries (00_scope.md R13). -/
inductive HostEvent where
  /-- Issue one command (30_encoding.md R71). -/
  | command (c : Command)
  /-- Write bytes to the input source (20_memory.md R61). -/
  | srcWrite (bytes : List Byte)
  /-- Latch the input source's end (20_memory.md R60, R61). -/
  | srcEnd
  /-- The application reads `n` bytes from the output sink (20_memory.md R58). -/
  | sinkRead (n : Nat)
  /-- Assert and release reset (70_reset_and_hazards.md R162), with the configuration it samples
  and the command presented at the same boundary, if any, which is not accepted (R163). -/
  | reset (cfg : Config) (presented : Option Command)
  /-- The host's boot sequence, items 1 to 4 of 70_reset_and_hazards.md R166: a configuration, a
  new output sink of a capacity, a new input source with the bytes already written to it, reset. -/
  | boot (cfg : Config) (sinkCapacity : Nat) (initial : List Byte)
deriving DecidableEq, Repr

/-- The block's one byte store, the reassembly window (10_state.md R22, R23; 20_memory.md R53): the
present slots, as pairs of the offset from `ra_base` and the byte, offsets strictly rising
(`Memory.wf`). A slot that is not listed is absent; its byte is unspecified and nothing reads it. -/
abbrev Memory := List Host.Cell

/-- The state of the machine. The first two groups are the configuration, the next three are the
block state that 10_state.md R51 lists in full, and the last two are outside the block. -/
structure State where
  /-- Structural parameters, fixed for the block (R6, R19). -/
  params : Params
  /-- Configuration sampled by reset (R19). -/
  cfg : Config
  /-- `ra_base` (R21). -/
  raBase : Word
  /-- `W`, the reassembly window (R22). -/
  window : Memory
  /-- `ra_unasm` (R24). -/
  raUnasm : Word
  /-- `ra_eof_valid` (R25). -/
  raEofValid : Bool
  /-- `ra_eof_index` (R26). -/
  raEofIndex : Word
  /-- `ra_ended` (R27). -/
  raEnded : Bool
  /-- `snd_state` (R32). -/
  sndState : SndState
  /-- `snd_next` (R33). -/
  sndNext : Word
  /-- `snd_bif` (R34). -/
  sndBif : Word
  /-- `snd_window` (R35): a `WIN_BITS`-bit value, held on the 64 bits of its operand port. Its bits
  above `WIN_BITS` are 0 (`SndInv.windowFits`). -/
  sndWindow : Word
  /-- `Q`, oldest entry first (R38). -/
  queue : List Entry
  /-- `tmr_running` (R40). -/
  tmrRunning : Bool
  /-- `tmr_elapsed` (R41). -/
  tmrElapsed : Word
  /-- `tmr_rto` (R42). -/
  tmrRto : Word
  /-- `tmr_consec` (R43). -/
  tmrConsec : Word
  /-- The input source (R50). -/
  source : Source
  /-- The output sink (R50). -/
  sink : Sink
  /-- The segment-output trace, oldest record first (R50). -/
  segOut : List Record
  /-- The command interface's input ports, as sampled with the last accepted command (R16, R71).
  No command reads a previous command's values. -/
  port : Command
  /-- The answer driven for the last command; `none` when none was answered since reset (R71). -/
  answer : Option Answer
  /-- What the host will do next, first event first. The model's own field (R13, R17). -/
  host : List HostEvent
deriving DecidableEq, Repr

/-- The command interface with nothing driven on it. -/
def Command.idle : Command where
  cmd := 0
  opa := 0
  opb := 0
  opc := 0
  data := []

/-- The machine right after reset (10_state.md R51) of a block with the given parameters and
configuration, with the collaborators started as 70_reset_and_hazards.md R166 asks: a fresh sink of
the given capacity, a fresh source, nothing sent. -/
def State.resetWith (params : Params) (cfg : Config) (sinkCapacity : Nat) : State where
  params := params
  cfg := cfg
  raBase := 0
  window := []
  raUnasm := 0
  raEofValid := false
  raEofIndex := 0
  raEnded := false
  sndState := .closed
  sndNext := 0
  sndBif := 0
  sndWindow := 1
  queue := []
  tmrRunning := false
  tmrElapsed := 0
  tmrRto := cfg.initRto
  tmrConsec := 0
  source := ⟨[], false⟩
  sink := ⟨[], 0, sinkCapacity⟩
  segOut := []
  port := Command.idle
  answer := none
  host := []

/-- The machine after reset. Every block field holds the value of 10_state.md R51. DESIGN CHOICE
(log 1): the configuration and the sink's capacity, which the host chooses, are those of
95_test_vectors.md, a sink of CFG_CAPACITY bytes. -/
def State.reset : State :=
  State.resetWith Params.standard Config.standard 8

end Sys2Proof.Machine
end

