-- ==== Sys2Proof/Machine/Codec.lean ====
section
/-! DEFINITION. Exact arithmetic of 00_scope.md rule R9 and the codec functions `wrap` and `unwrap`
of 40_codec.md rules R86 to R89. The codec has no state (10_state.md R20). -/

namespace Sys2Proof.Machine

open Sys2Proof

/-- `2^64 − 1`, the largest value of a 64-bit word. -/
abbrev maxWord : Nat := 2 ^ 64 - 1

/-- `sat64(x) = min(x, 2^64 − 1)` (00_scope.md R9). -/
def sat64 (x : Nat) : Word := BitVec.ofNat 64 (min x maxWord)

/-- `add32(a, b) = (a + b) mod 2^32` (00_scope.md R9). -/
def add32 (a b : Nat) : Wire := BitVec.ofNat 32 ((a + b) % 2 ^ 32)

/-- `sub32(a, b) = (a − b) mod 2^32` (00_scope.md R9). -/
def sub32 (a b : Wire) : Wire := a - b

/-- `wrap(a, isn) = add32(isn, a mod 2^32)` (40_codec.md R86). -/
def wrap (a : Word) (isn : Wire) : Wire := add32 isn.toNat (a.toNat % 2 ^ 32)

/-- `|x − c|` over the integers (00_scope.md R9). -/
def distance (x c : Nat) : Nat := ((x : Int) - (c : Int)).natAbs

/-- The candidates of 40_codec.md R88, in rising order: one wrap below, the checkpoint's own 2^32
block, one wrap above, as far as they lie in [0, 2^64). -/
def unwrapCandidates (w isn : Wire) (c : Word) : List Nat :=
  let off := (sub32 w isn).toNat
  let h := c.toNat / 2 ^ 32
  let m := h * 2 ^ 32 + off
  (if 0 < h then [m - 2 ^ 32] else []) ++ [m] ++ (if h < 2 ^ 32 - 1 then [m + 2 ^ 32] else [])

/-- The least distance of a list of candidates to the checkpoint. -/
def leastDistance (cands : List Nat) (c : Nat) : Nat :=
  (cands.map (distance · c)).foldl min (2 ^ 64)

/-- The nearest candidates, in rising order: one, or two on an exact tie (40_codec.md R88, R89). -/
def nearest (cands : List Nat) (c : Nat) : List Nat :=
  cands.filter (fun x => distance x c = leastDistance cands c)

/-- `unwrap(w, isn, c)` (40_codec.md R87, R88), with the tie rule of R89: `lower` returns the least
of the nearest candidates, `upper` the greatest. -/
def unwrap (tie : UnwrapTie) (w isn : Wire) (c : Word) : Word :=
  let t := nearest (unwrapCandidates w isn c) c.toNat
  match tie with
  | .lower => BitVec.ofNat 64 (t.headD 0)
  | .upper => BitVec.ofNat 64 (t.getLastD 0)

end Sys2Proof.Machine
end

