-- ==== Sys2Proof/Machine/Ops.lean ====
section
/-! DEFINITION. The named operations of 00_scope.md rule R10: the answer, the one exception
(60_exceptions.md R150), the reassembly window, the three ports, the outstanding queue, and the
two shared procedures `emit_new` (42_sender.md R117) and the timer's start, restart and stop. -/

namespace Sys2Proof.Machine

open Sys2Proof

/-! ### The answer -/

/-- The state with STATUS and RES driven. -/
def State.answered (s : State) (status : Status) (res : Word) : State :=
  { s with answer := some ⟨status, res⟩ }

/-- `respond(OK, res)`: the command ends (00_scope.md R10). -/
def respondOk (s : State) (res : Word) : Host.Outcome State Fault Refusal :=
  .next (s.answered .ok res)

/-- `raise ILLEGAL`, the block's only exception: `respond(ILLEGAL, 0)` with no state change and no
port event (00_scope.md R10, 60_exceptions.md R150). It is called on the state the command started
in, so every write of the command is discarded. Nothing is saved and nothing is vectored, and there
is no return from it (60_exceptions.md R153): the next command runs normally. -/
def raiseIllegal (s : State) : Host.Outcome State Fault Refusal :=
  .next (s.answered .illegal 0)

/-- A one-bit result, zero above (30_encoding.md R77). -/
def bitResult (b : Bool) : Word := BitVec.zeroExtend 64 (BitVec.ofBool b)

/-- The low `n` bits of a word, zero above: the field `[n−1:0]` (00_scope.md R8). -/
def lowBits (n : Nat) (x : Word) : Word := BitVec.ofNat 64 (x.toNat % 2 ^ n)

/-! ### The reassembly window (10_state.md R22, R31) -/

/-- The canonical form of the window: offsets strictly rising. An absent slot is never listed. -/
abbrev Memory.wf (m : Memory) : Prop := m.Pairwise (fun a b => a.1 < b.1)

/-- The slot at offset `k`: its byte when its presence bit is 1, `none` when it is 0. What an
unlisted slot reads as is `none`, never a byte (10_state.md R22: no rule reads one). -/
def Memory.slot : Memory → Nat → Option Byte
  | [], _ => none
  | (j, b) :: rest, k => if k = j then some b else Memory.slot rest k

/-- `W.present(k)` (00_scope.md R10). -/
def Memory.present (m : Memory) (k : Nat) : Bool := (m.slot k).isSome

/-- `W.store(k, b)`: the slot at offset `k` holds `b` and is present (00_scope.md R10). -/
def Memory.store : Memory → Nat → Byte → Memory
  | [], k, b => [(k, b)]
  | (j, c) :: rest, k, b =>
    if k < j then (k, b) :: (j, c) :: rest
    else if k = j then (k, b) :: rest
    else (j, c) :: Memory.store rest k b

/-- `W.shift()`: slot 0 is dropped and slot k + 1 becomes slot k, so slot C − 1 becomes absent
(00_scope.md R10, 10_state.md R31). -/
def Memory.shift (m : Memory) : Memory :=
  (m.filter (fun c => c.1 != 0)).map (fun c => (c.1 - 1, c.2))

/-! ### The output sink (20_memory.md R58, R59) -/

/-- The byte a sink event writes. -/
def SinkEvent.written : SinkEvent → Option Byte
  | .byte b => some b
  | .eof => none

/-- The bytes of the sink's trace, in the order they were written. -/
def Sink.bytes (k : Sink) : List Byte := k.events.filterMap SinkEvent.written

/-- `SinkBuffered()`: bytes written and not yet read (10_state.md R50). -/
def Sink.buffered (k : Sink) : Nat := k.bytes.length - k.readCount

/-- One more event on the sink's trace. -/
def Sink.push (k : Sink) (e : SinkEvent) : Sink := { k with events := k.events ++ [e] }

/-- `SinkWrite(b)` (00_scope.md R10). -/
def State.sinkWrite (s : State) (b : Byte) : State := { s with sink := s.sink.push (.byte b) }

/-- `SinkEnd()` (00_scope.md R10). -/
def State.sinkEnd (s : State) : State := { s with sink := s.sink.push .eof }

/-! ### The input source (20_memory.md R60) -/

/-- `SrcAvail()`. -/
def State.srcAvail (s : State) : Nat := s.source.bytes.length

/-- `SrcEnded()`. -/
def State.srcEnded (s : State) : Bool := s.source.ended

/-- The bytes `SrcRead(n)` returns. -/
def State.srcFront (s : State) (n : Nat) : List Byte := s.source.bytes.take n

/-- The state after `SrcRead(n)`: its first `n` bytes are consumed. -/
def State.srcConsume (s : State) (n : Nat) : State :=
  { s with source := { s.source with bytes := s.source.bytes.drop n } }

/-! ### Segments and the outstanding queue (10_state.md R37, R38; 20_memory.md R62, R63) -/

/-- `e.len`, the length in sequence space (10_state.md R37). -/
def Entry.len (e : Entry) : Nat := e.payload.length + e.syn.toNat + e.fin.toNat

/-- The end sequence number `e.start + e.len` (10_state.md R37), exact. -/
def Entry.endSeq (e : Entry) : Nat := e.start.toNat + e.len

/-- The record of a segment, with the fields of 20_memory.md R63: the wire sequence number is
`wrap(start, CFG_ISN)`; ACK and RST are 0. -/
def recordOf (kind : SegKind) (isn : Wire) (e : Entry) : Record where
  kind := kind
  seqno := wrap e.start isn
  start := e.start
  syn := e.syn
  fin := e.fin
  payload := e.payload
  len := BitVec.ofNat 64 e.len
  ack := false
  rst := false

/-- `SegOut(kind, seg)` (00_scope.md R10). -/
def State.emit (s : State) (kind : SegKind) (e : Entry) : State :=
  { s with segOut := s.segOut ++ [recordOf kind s.cfg.isn e] }

/-- The timer running from zero: its start (42_sender.md R118) and its restart (R129). -/
def State.timerRestart (s : State) : State :=
  { s with tmrRunning := true, tmrElapsed := 0 }

/-- The timer stopped (42_sender.md R130, 43_timer.md R141). -/
def State.timerStop (s : State) : State :=
  { s with tmrRunning := false, tmrElapsed := 0 }

/-- The timer starts when a new segment is queued and it is not running (42_sender.md R118). -/
def State.timerStart (s : State) : State :=
  if s.tmrRunning then s else s.timerRestart

/-- `Q.push(e)` with the two counters that follow it (42_sender.md R117). -/
def State.enqueue (s : State) (e : Entry) : State :=
  { s with
    queue := s.queue ++ [e]
    sndNext := BitVec.ofNat 64 (s.sndNext.toNat + e.len)
    sndBif := BitVec.ofNat 64 (s.sndBif.toNat + e.len) }

/-- `emit_new(syn, fin, payload)`, the one way a segment enters the queue (42_sender.md R117). -/
def State.emitNew (s : State) (syn fin : Bool) (payload : List Byte) : State :=
  let e : Entry := ⟨s.sndNext, syn, fin, payload⟩
  ((s.enqueue e).emit .new e).timerStart

end Sys2Proof.Machine
end

