-- ==== Sys2Proof/Machine/Flags.lean ====
section
/-! DEFINITION. The derived status values, not stored (10_state.md rules R28, R36), the two status
words and every register of the map of 10_state.md rule R47. -/

namespace Sys2Proof.Machine

open Sys2Proof

/-- `RA_EMPTY = (ra_unasm = 0)` (10_state.md R28). -/
def State.raEmpty (s : State) : Bool := s.raUnasm == 0

/-- `FIN_ACKED = (snd_state = FIN_SENT) ∧ (snd_bif = 0)` (10_state.md R36). -/
def State.finAcked (s : State) : Bool := s.sndState == .finSent && s.sndBif == 0

/-- `RETX_EXCEEDED = (tmr_consec > CFG_MAX_RETX)` (10_state.md R36, 60_exceptions.md R155). -/
def State.retxExceeded (s : State) : Bool := decide (s.cfg.maxRetx.toNat < s.tmrConsec.toNat)

/-- `snd_next_wire = wrap(snd_next, CFG_ISN)` (10_state.md R36). -/
def State.sndNextWire (s : State) : Wire := wrap s.sndNext s.cfg.isn

/-- Three flags in bits 0, 1 and 2, every bit above reading 0 (10_state.md R47). -/
def flagWord (b0 b1 b2 : Bool) : Word :=
  BitVec.zeroExtend 64 (BitVec.ofBool b2 ++ BitVec.ofBool b1 ++ BitVec.ofBool b0)

/-- RA_STATUS (10_state.md R47). -/
def State.raStatus (s : State) : Word := flagWord s.raEmpty s.raEofValid s.raEnded

/-- SND_STATUS (10_state.md R47). -/
def State.sndStatus (s : State) : Word := flagWord s.tmrRunning s.finAcked s.retxExceeded

/-- The encoding of `snd_state` (10_state.md R32). -/
def SndState.code : SndState → BitVec 2
  | .closed => 0
  | .synSent => 1
  | .synAcked => 2
  | .finSent => 3

/-- The content of each register, zero-extended to 64 bits (10_state.md R47). -/
def State.readReg (s : State) : Reg → Word
  | .cfgCapacity => s.cfg.capacity
  | .cfgInitRto => s.cfg.initRto
  | .cfgMaxPayload => s.cfg.maxPayload
  | .cfgMaxRetx => s.cfg.maxRetx
  | .cfgIsn => s.cfg.isn.zeroExtend 64
  | .cfgQDepth => s.params.qDepth.getD 0
  | .raBase => s.raBase
  | .raUnasm => s.raUnasm
  | .raStatus => s.raStatus
  | .raEofIndex => s.raEofIndex
  | .sndState => s.sndState.code.zeroExtend 64
  | .sndNext => s.sndNext
  | .sndNextWire => s.sndNextWire.zeroExtend 64
  | .sndBif => s.sndBif
  | .sndWindow => lowBits s.params.winBits s.sndWindow
  | .sndQlen => BitVec.ofNat 64 s.queue.length
  | .sndStatus => s.sndStatus
  | .tmrRto => s.tmrRto
  | .tmrElapsed => s.tmrElapsed
  | .tmrConsec => s.tmrConsec

end Sys2Proof.Machine
end

