-- ==== Sys2Proof/Machine/Operands.lean ====
section
/-! DEFINITION. Operand assembly and the operand checks of 30_encoding.md rules R77 to R80. A field
is the low bits of its port, unsigned; a set bit above the field raises ILLEGAL. -/

namespace Sys2Proof.Machine

open Sys2Proof

/-- Every bit of a port above a field of `n` bits is 0 (30_encoding.md R79). -/
def fitsIn (n : Nat) (x : Word) : Bool := x >>> n == 0

/-- SNC_WRAP's check: `OPB[63:32] = 0` (30_encoding.md R79). -/
def wrapOperandsOk (c : Command) : Bool := fitsIn 32 c.opb

/-- SNC_UNWRAP's checks: `OPA[63:32] = 0` and `OPB[63:32] = 0` (30_encoding.md R79). -/
def unwrapOperandsOk (c : Command) : Bool := fitsIn 32 c.opa && fitsIn 32 c.opb

/-- SND_ACK's checks: `OPA[63:32] = 0` and `OPB[63:WIN_BITS] = 0` (30_encoding.md R79). -/
def ackOperandsOk (p : Params) (c : Command) : Bool := fitsIn 32 c.opa && fitsIn p.winBits c.opb

/-- `len(DATA) ≤ DATA_MAX`, where `none` is ∞ (00_scope.md R6, 30_encoding.md R80). -/
def dataFits (p : Params) (len : Nat) : Bool :=
  match p.dataMax with
  | none => true
  | some m => decide (len ≤ m)

/-- RA_INSERT's checks: `len(DATA) ≤ DATA_MAX` and `OPA + len(DATA) ≤ 2^64 − 1`, computed exactly
(30_encoding.md R80). -/
def insertOperandsOk (p : Params) (c : Command) : Bool :=
  dataFits p c.data.length && decide (c.opa.toNat + c.data.length ≤ maxWord)

/-- A 32-bit operand field, bits [31:0] of its port (30_encoding.md R78). -/
def wireField (x : Word) : Wire := x.extractLsb' 0 32

/-- The window operand, bits [WIN_BITS−1:0] of its port (30_encoding.md R78). -/
def windowField (p : Params) (x : Word) : Word := lowBits p.winBits x

end Sys2Proof.Machine
end

