-- ==== Sys2Proof/Machine/Control.lean ====
section
/-! DEFINITION. The control commands NOP and RDREG (44_control.md rules R146, R147). -/

namespace Sys2Proof.Machine

open Sys2Proof

/-- NOP (44_control.md R146). -/
def execNop (s : State) : Host.Outcome State Fault Refusal := respondOk s 0

/-- RDREG (44_control.md R147): a listed register's value, or ILLEGAL for a reserved number. -/
def execRdreg (regno : BitVec 8) (s : State) : Host.Outcome State Fault Refusal :=
  match regOfNumber? regno with
  | some r => respondOk s (s.readReg r)
  | none => raiseIllegal s

end Sys2Proof.Machine
end

