-- ==== Sys2Proof/Machine/Reassembler.lean ====
section
/-! DEFINITION. The reassembler's command RA_INSERT (41_reassembler.md rules R94 to R102). Every
quantity of it is an exact natural number, and the one subtraction is clamped at 0 (R95). -/

namespace Sys2Proof.Machine

open Sys2Proof

/-- The acceptance limit `lim = b + max(0, C − OB)` (41_reassembler.md R94); the subtraction of
natural numbers is the clamped one. -/
def State.acceptLimit (s : State) : Nat :=
  s.raBase.toNat + (s.cfg.capacity.toNat - s.sink.buffered)

/-- The substring of DATA that step 1 keeps: the stream indices `[max(s, b), min(e, lim))` of a
substring `[s, e)` (41_reassembler.md R98). -/
def clip (start base limit : Nat) (data : List Byte) : List Byte :=
  let lo := max start base
  let hi := min (start + data.length) limit
  (data.drop (lo - start)).take (hi - lo)

/-- The substring has a byte at or beyond the limit: `L > 0 ∧ e > lim` (41_reassembler.md R98). -/
def truncated (start limit : Nat) (data : List Byte) : Bool :=
  decide (0 < data.length) && decide (limit < start + data.length)

/-- One byte of step 2: an absent slot receives it and `ra_unasm` grows by 1; a present one is left
unchanged, so the byte stored first wins (41_reassembler.md R99). -/
def State.storeByte (s : State) (k : Nat) (b : Byte) : State :=
  if s.window.present k then s
  else { s with
    window := s.window.store k b
    raUnasm := BitVec.ofNat 64 (s.raUnasm.toNat + 1) }

/-- Step 2, store: the bytes go to the offsets from `k` on, in ascending order
(41_reassembler.md R99). -/
def State.storeRun (s : State) (k : Nat) : List Byte → State
  | [] => s
  | b :: rest => (s.storeByte k b).storeRun (k + 1) rest

/-- Step 3, the end-of-stream mark: only LAST = 1 changes it; a truncated substring clears it and
leaves the index, another sets it with index `e` (41_reassembler.md R100). -/
def State.markEnd (s : State) (last trunc : Bool) (e : Nat) : State :=
  if last then
    if trunc then { s with raEofValid := false }
    else { s with raEofValid := true, raEofIndex := BitVec.ofNat 64 e }
  else s

/-- One turn of step 4: the byte of slot 0 goes to the sink, the window shifts, `ra_base` advances
and `ra_unasm` falls by one (41_reassembler.md R101). -/
def State.drainOne (s : State) (b : Byte) : State :=
  { s.sinkWrite b with
    window := s.window.shift
    raBase := BitVec.ofNat 64 (s.raBase.toNat + 1)
    raUnasm := BitVec.ofNat 64 (s.raUnasm.toNat - 1) }

/-- Step 4 for at most `n` turns: while slot 0 is present, drain it (41_reassembler.md R101). -/
def drainLoop : Nat → State → State
  | 0, s => s
  | n + 1, s =>
    match s.window.slot 0 with
    | none => s
    | some b => drainLoop n (s.drainOne b)

/-- Step 4, drain. Every turn removes a present slot, so there are at most as many turns as present
slots. -/
def State.drain (s : State) : State := drainLoop s.window.length s

/-- The three things the end check asks (41_reassembler.md R102). -/
def State.endDue (s : State) : Bool :=
  s.raEofValid && decide (s.raEofIndex.toNat ≤ s.raBase.toNat) && s.raUnasm == 0

/-- Step 5, the end check (41_reassembler.md R102). -/
def State.endCheck (s : State) : State :=
  if s.endDue then { s.sinkEnd with raEnded := true } else s

/-- The state after step 2 of a command that inserts `data` at `start`. -/
def State.afterStore (s : State) (start : Nat) (data : List Byte) : State :=
  s.storeRun (max start s.raBase.toNat - s.raBase.toNat)
    (clip start s.raBase.toNat s.acceptLimit data)

/-- Steps 1 to 5 of RA_INSERT (41_reassembler.md R96). The limit is computed once, before anything
is stored or drained (R94). -/
def State.insert (s : State) (start : Nat) (data : List Byte) (last : Bool) : State :=
  (((s.afterStore start data).markEnd last (truncated start s.acceptLimit data)
    (start + data.length)).drain).endCheck

/-- RA_INSERT (41_reassembler.md R96): the operand checks (30_encoding.md R80), step 0 (R97), then
steps 1 to 5. -/
def execRaInsert (last : Bool) (s : State) : Host.Outcome State Fault Refusal :=
  if insertOperandsOk s.params s.port then
    if s.raEnded then respondOk s 0
    else respondOk (s.insert s.port.opa.toNat s.port.data last) 0
  else raiseIllegal s

end Sys2Proof.Machine
end

