-- ==== Sys2Proof/Machine/Sender.lean ====
section
/-! DEFINITION. The sender's commands SND_FILL, SND_ACK and SND_EMPTY (42_sender.md rules R115 to
R131). -/

namespace Sys2Proof.Machine

open Sys2Proof

/-- The effective window `W'`: 1 when `snd_window` is 0, else `snd_window` (42_sender.md R115). -/
def State.effectiveWindow (s : State) : Nat :=
  if s.sndWindow = 0 then 1 else s.sndWindow.toNat

/-- `room = max(0, W' − snd_bif)` (42_sender.md R116); the subtraction is the clamped one. -/
def State.room (s : State) : Nat := s.effectiveWindow - s.sndBif.toNat

/-- `Q.len = Q_DEPTH`; with `none` (∞) it never holds (42_sender.md R125). -/
def State.queueFull (s : State) : Bool :=
  match s.params.qDepth with
  | none => false
  | some d => decide (s.queue.length = d.toNat)

/-- `n = min(SrcAvail(), room, CFG_MAX_PAYLOAD)` (42_sender.md R122). -/
def State.payloadLen (s : State) : Nat :=
  min (min s.srcAvail s.room) s.cfg.maxPayload.toNat

/-- The FIN goes with a segment of `n` bytes when the end is latched, the payload takes the last
available byte and the FIN fits in the room (42_sender.md R123). -/
def State.finFits (s : State) (n : Nat) : Bool :=
  s.srcEnded && decide (s.srcAvail - n = 0) && decide (n + 1 ≤ s.room)

/-- One turn of the loop of 42_sender.md R119: the payload length and the FIN flag of the segment it
emits, or `none` where the loop returns (R122, R124, R125). -/
def State.nextSegment (s : State) : Option (Nat × Bool) :=
  let n := s.payloadLen
  let fin := s.finFits n
  if s.room = 0 then none
  else if s.srcAvail = 0 ∧ s.srcEnded = false then none
  else if s.queueFull then none
  else if n + fin.toNat = 0 then none
  else if maxWord < s.sndNext.toNat + n + fin.toNat then none
  else some (n, fin)

/-- The segment of one turn of the loop: read `n` bytes, emit them with the FIN flag, and in FIN's
case move to FIN_SENT (42_sender.md R119). -/
def State.sendSegment (s : State) (n : Nat) (fin : Bool) : State :=
  let sent := (s.srcConsume n).emitNew false fin (s.srcFront n)
  if fin then { sent with sndState := .finSent } else sent

/-- The loop of 42_sender.md R119 for at most `k` turns. -/
def fillLoop : Nat → State → State
  | 0, s => s
  | k + 1, s =>
    match s.nextSegment with
    | none => s
    | some (n, fin) =>
      if fin then s.sendSegment n fin else fillLoop k (s.sendSegment n fin)

/-- `fill()` (42_sender.md R119 to R125). In SYN_ACKED, every turn that goes on reads at least one
byte of the source, so one turn more than it has bytes is enough. -/
def State.fill (s : State) : State :=
  match s.sndState with
  | .closed => { s.emitNew true false [] with sndState := .synSent }
  | .synSent => s
  | .finSent => s
  | .synAcked => fillLoop (s.srcAvail + 1) s

/-- SND_FILL (42_sender.md R119). -/
def execSndFill (s : State) : Host.Outcome State Fault Refusal :=
  respondOk s.fill 0

/-- The absolute value of an ack: `unwrap(wire_ackno, CFG_ISN, snd_next)` (42_sender.md R127). -/
def State.ackValue (s : State) (ackno : Wire) : Nat :=
  (unwrap s.params.unwrapTie ackno s.cfg.isn s.sndNext).toNat

/-- The lower bound of acceptance: the oldest outstanding start, or `snd_next` when nothing is
outstanding (42_sender.md R128). -/
def State.ackLow (s : State) : Nat :=
  match s.queue with
  | [] => s.sndNext.toNat
  | e :: _ => e.start.toNat

/-- The ack is accepted (42_sender.md R128). -/
def State.ackAccepted (s : State) (a : Nat) : Bool :=
  decide (s.ackLow ≤ a) && decide (a ≤ s.sndNext.toNat)

/-- The entries an ack pops: while the oldest one's end is at or below the ack
(42_sender.md R129). -/
def ackedEntries (a : Nat) (q : List Entry) : List Entry :=
  q.takeWhile (fun e => decide (e.endSeq ≤ a))

/-- The entries it leaves. -/
def unackedEntries (a : Nat) (q : List Entry) : List Entry :=
  q.dropWhile (fun e => decide (e.endSeq ≤ a))

/-- Popping, with bytes in flight falling by each popped entry's length (42_sender.md R129). -/
def State.popAcked (s : State) (a : Nat) : State :=
  { s with
    queue := unackedEntries a s.queue
    sndBif := (ackedEntries a s.queue).foldl
      (fun b e => BitVec.ofNat 64 (b.toNat - e.len)) s.sndBif }

/-- If any segment was popped: RTO and consecutive count to their initial values, timer restarted
(42_sender.md R129). -/
def State.ackTimerReset (s : State) (popped : Bool) : State :=
  if popped then { s.timerRestart with tmrRto := s.cfg.initRto, tmrConsec := 0 } else s

/-- SYN_SENT becomes SYN_ACKED when the ack covers the SYN (42_sender.md R130). -/
def State.ackSyn (s : State) (a : Nat) : State :=
  if s.sndState = .synSent ∧ 1 ≤ a then { s with sndState := .synAcked } else s

/-- With no segment outstanding the timer stops (42_sender.md R130). -/
def State.ackTimerStop (s : State) : State :=
  if s.queue.isEmpty then s.timerStop else s

/-- The state of an accepted ack just before its `fill()`, in the order of 60_exceptions.md R154:
window record, popping, timer reset, SYN transition, timer stop. -/
def State.ackRecorded (s : State) (a : Nat) (window : Word) : State :=
  let popped := !(ackedEntries a s.queue).isEmpty
  ((((({ s with sndWindow := window }).popAcked a).ackTimerReset popped).ackSyn a)).ackTimerStop

/-- SND_ACK (42_sender.md R126). -/
def execSndAck (s : State) : Host.Outcome State Fault Refusal :=
  if ackOperandsOk s.params s.port then
    let a := s.ackValue (wireField s.port.opa)
    if s.ackAccepted a then
      respondOk (s.ackRecorded a (windowField s.params s.port.opb)).fill (bitResult true)
    else respondOk s (bitResult false)
  else raiseIllegal s

/-- SND_EMPTY (42_sender.md R131): one EMPTY record at `snd_next`, queued nowhere. -/
def execSndEmpty (s : State) : Host.Outcome State Fault Refusal :=
  respondOk (s.emit .empty ⟨s.sndNext, false, false, []⟩) 0

end Sys2Proof.Machine
end

