-- ==== Sys2Proof/Machine/Snc.lean ====
section
/-! DEFINITION. The codec commands SNC_WRAP and SNC_UNWRAP (40_codec.md rules R91, R92). They read
only their operands and write only RES (10_state.md R20). -/

namespace Sys2Proof.Machine

open Sys2Proof

/-- SNC_WRAP (40_codec.md R91). -/
def execSncWrap (s : State) : Host.Outcome State Fault Refusal :=
  if wrapOperandsOk s.port then
    respondOk s ((wrap s.port.opa (wireField s.port.opb)).zeroExtend 64)
  else raiseIllegal s

/-- SNC_UNWRAP (40_codec.md R92). -/
def execSncUnwrap (s : State) : Host.Outcome State Fault Refusal :=
  if unwrapOperandsOk s.port then
    respondOk s
      (unwrap s.params.unwrapTie (wireField s.port.opa) (wireField s.port.opb) s.port.opc)
  else raiseIllegal s

end Sys2Proof.Machine
end

