-- ==== Sys2Proof/Machine/Timer.lean ====
section
/-! DEFINITION. The retransmission timer's command SND_TICK (43_timer.md rules R134 to R141). -/

namespace Sys2Proof.Machine

open Sys2Proof

/-- Accumulation: `tmr_elapsed` grows by the ticked time, saturating (43_timer.md R136). -/
def State.accumulate (s : State) (elapsed : Word) : State :=
  { s with tmrElapsed := sat64 (s.tmrElapsed.toNat + elapsed.toNat) }

/-- Backoff: unless the raw window is 0 and the retransmitted segment carries no SYN, the timeout
doubles and the consecutive count grows by 1, both saturating (43_timer.md R139). -/
def State.backoff (s : State) (front : Entry) : State :=
  if s.sndWindow ≠ 0 ∨ front.syn = true then
    { s with
      tmrRto := sat64 (2 * s.tmrRto.toNat)
      tmrConsec := sat64 (s.tmrConsec.toNat + 1) }
  else s

/-- An expiry: the oldest outstanding segment goes out again as it is (43_timer.md R138), the timer
backs off (R139), and the accumulator restarts (R140). -/
def State.expire (s : State) (front : Entry) : State :=
  { (s.emit .retx front).backoff front with tmrElapsed := 0 }

/-- SND_TICK (43_timer.md R134). -/
def execSndTick (s : State) : Host.Outcome State Fault Refusal :=
  if s.tmrRunning then
    match s.queue with
    | [] => respondOk s.timerStop (bitResult false)
    | front :: _ =>
      let t := s.accumulate s.port.opa
      if t.tmrElapsed.toNat < t.tmrRto.toNat then respondOk t (bitResult false)
      else respondOk (t.expire front) (bitResult true)
  else respondOk s (bitResult false)

end Sys2Proof.Machine
end

