-- ==== Sys2Proof/Machine/Dispatch.lean ====
section
/-! DEFINITION. The meaning of each command, one arm per constructor. -/

namespace Sys2Proof.Machine

open Sys2Proof

-- The command's effect on the state whose ports hold its operands (00_scope.md R14).
def exec (i : Instr) (s : State) : Host.Outcome State Fault Refusal :=
  match i with
  | .nop => Sys2Proof.Machine.execNop s
  | .sncWrap => Sys2Proof.Machine.execSncWrap s
  | .sncUnwrap => Sys2Proof.Machine.execSncUnwrap s
  | .raInsert last => Sys2Proof.Machine.execRaInsert last s
  | .sndFill => Sys2Proof.Machine.execSndFill s
  | .sndAck => Sys2Proof.Machine.execSndAck s
  | .sndTick => Sys2Proof.Machine.execSndTick s
  | .sndEmpty => Sys2Proof.Machine.execSndEmpty s
  | .rdreg regno => Sys2Proof.Machine.execRdreg regno s

end Sys2Proof.Machine
end

