-- ==== Sys2Proof/Machine/Interface.lean ====
section
/-! DEFINITION. The command interface and the host's side of the machine: how a command is taken,
decoded and performed (30_encoding.md R71, R82; 60_exceptions.md R154), reset
(70_reset_and_hazards.md R162 to R166), and the host's actions on the collaborators (20_memory.md
R58, R61). -/

namespace Sys2Proof.Machine

open Sys2Proof

/-- The legal values of the configuration (00_scope.md R6): `1 ≤ C`, `CFG_MAX_PAYLOAD ≥ 1`,
`WIN_BITS = 16`, `Q_DEPTH ≥ 1` or ∞, `DATA_MAX ≥ CFG_MAX_PAYLOAD` or ∞. The other values may be any of their
width. -/
def configLegal (p : Params) (c : Config) : Bool :=
  decide (1 ≤ c.capacity.toNat) && decide (1 ≤ c.maxPayload.toNat)
    && decide (p.winBits = 16)
    && p.qDepth.all (fun d => decide (1 ≤ d.toNat))
    && p.dataMax.all (fun m => decide (c.maxPayload.toNat ≤ m))

/-- The output sink is large enough for the configuration (20_memory.md R58). -/
def sinkLargeEnough (k : Sink) (c : Config) : Bool := decide (c.capacity.toNat ≤ k.capacity)

/-- The command interface with a command's word and operands sampled (10_state.md R16). -/
def State.withPort (s : State) (c : Command) : State := { s with port := c }

/-- The reset transition (70_reset_and_hazards.md R162): the configuration is sampled and every
piece of block state takes the value of 10_state.md R51. The collaborators are not touched (R165),
whatever they hold (log 18).
DESIGN CHOICE (log 6): the answer outputs show no answer after reset. -/
def State.resetBlock (s : State) (cfg : Config) : State :=
  { s with
    cfg := cfg
    raBase := 0
    window := []
    raUnasm := 0
    raEofValid := false
    raEofIndex := 0
    raEnded := false
    sndState := .closed
    sndNext := 0
    sndBif := 0
    sndWindow := 1
    queue := []
    tmrRunning := false
    tmrElapsed := 0
    tmrRto := cfg.initRto
    tmrConsec := 0
    answer := none }

/-- The reset input, taken at a command boundary (70_reset_and_hazards.md R163): the configuration
and the sink's capacity are checked (00_scope.md R6, R168 c), then the block is reset. -/
def takeReset (cfg : Config) (s : State) : Host.Outcome State Fault Refusal :=
  if configLegal s.params cfg then
    if sinkLargeEnough s.sink cfg then .next (s.resetBlock cfg)
    else .refused .sinkTooSmall
  else .refused .illegalConfiguration

/-- The boot sequence of 70_reset_and_hazards.md R166: the collaborators are brought to their start
state, then reset is taken. -/
def takeBoot (cfg : Config) (sinkCapacity : Nat) (initial : List Byte) (s : State) :
    Host.Outcome State Fault Refusal :=
  takeReset cfg { s with
    sink := ⟨[], 0, sinkCapacity⟩
    source := ⟨initial, false⟩
    segOut := [] }

/-- One command transaction (30_encoding.md R71): CMD is decoded, a reserved encoding is answered
ILLEGAL, another command runs (60_exceptions.md R154). A run under a configuration or a sink that
the host may not give is refused (00_scope.md R6, 70_reset_and_hazards.md R168). -/
def runCommand (c : Command) (s : State) : Host.Outcome State Fault Refusal :=
  if configLegal s.params s.cfg then
    if sinkLargeEnough s.sink s.cfg then
      match decode c.cmd with
      | .ok i => exec i (s.withPort c)
      | .error _ => raiseIllegal (s.withPort c)
    else .refused .sinkTooSmall
  else .refused .illegalConfiguration

/-- The host writes bytes to the input source; after its end it writes none (20_memory.md R61). -/
def hostWrite (bytes : List Byte) (s : State) : Host.Outcome State Fault Refusal :=
  if s.source.ended && !bytes.isEmpty then .refused .sourceWriteAfterEnd
  else .next { s with source := { s.source with bytes := s.source.bytes ++ bytes } }

/-- The host latches the input source's end, once or again (20_memory.md R58, R60). -/
def hostEnd (s : State) : Host.Outcome State Fault Refusal :=
  .next { s with source := { s.source with ended := true } }

/-- The application reads `n` bytes from the output sink (20_memory.md R58, 10_state.md R50). -/
def hostRead (n : Nat) (s : State) : Host.Outcome State Fault Refusal :=
  if n ≤ s.sink.buffered then
    .next { s with sink := { s.sink with readCount := s.sink.readCount + n } }
  else .refused .sinkReadBeyond

/-- One host event, already taken from the host's list. A command presented together with reset is
not accepted (70_reset_and_hazards.md R163). -/
def hostEvent (e : HostEvent) (s : State) : Host.Outcome State Fault Refusal :=
  match e with
  | .command c => runCommand c s
  | .srcWrite bytes => hostWrite bytes s
  | .srcEnd => hostEnd s
  | .sinkRead n => hostRead n s
  | .reset cfg _ => takeReset cfg s
  | .boot cfg sinkCapacity initial => takeBoot cfg sinkCapacity initial s

/-- One step: the host's next event happens. With none, the block is idle and keeps all its state
(60_exceptions.md R161). -/
def hostStep (s : State) : Host.Outcome State Fault Refusal :=
  match s.host with
  | [] => .next s
  | e :: rest => hostEvent e { s with host := rest }

/-- The command of a state's operand ports with another command word. -/
def State.commandWith (s : State) (cmd : CmdWord) : Command := { s.port with cmd := cmd }

/-- The host's next event is the command whose word is `w` and whose operands are the values on the
operand ports (log 7). -/
def State.presentWord (s : State) (nbits w : Nat) : State :=
  { s with host := .command (s.commandWith (BitVec.ofNat 16 (w % 2 ^ nbits))) :: s.host }

end Sys2Proof.Machine
end

