-- ==== Sys2Proof/Safety.lean ====
section
/-! DEFINITION. What counts as a good state of the block and as a good run of it: the invariants that
10_state.md and 41_reassembler.md state for every command boundary, and the words the statements
use for what a rule says (a badly encoded command, a candidate of `unwrap`, the slot contents after
RA_INSERT's store step). -/

namespace Sys2Proof.Machine

open Sys2Proof

/-! ### Invariants -/

/-- What the host owes at every command boundary: a legal configuration (00_scope.md R6) and an
output sink of at least CFG_CAPACITY bytes (20_memory.md R58). -/
structure HostInv (s : State) : Prop where
  legal : configLegal s.params s.cfg = true
  sinkFits : sinkLargeEnough s.sink s.cfg = true

/-- The acceptance limit of 41_reassembler.md R94, written out. -/
def limitOf (s : State) : Nat :=
  s.raBase.toNat + (s.cfg.capacity.toNat - (s.sink.bytes.length - s.sink.readCount))

/-- The bytes the block has delivered to the sink since reset: the last `ra_base` bytes of the trace
(41_reassembler.md R111 c). A reset does not touch the sink (70_reset_and_hazards.md R165), so older
bytes may stand before them. -/
def State.delivered (s : State) : List Byte :=
  s.sink.bytes.drop (s.sink.bytes.length - s.raBase.toNat)

/-- The sink's events since reset: the delivered bytes, then the end event once it was signalled. -/
def State.deliveredEvents (s : State) : List SinkEvent :=
  s.delivered.map .byte ++ (if s.raEnded then [.eof] else [])

/-- The reassembler at every command boundary, whatever the sink held at reset. -/
structure RaInv (s : State) : Prop where
  /-- The window is in its canonical form. -/
  windowWf : s.window.wf
  /-- Slot 0 is absent (41_reassembler.md R111 a). -/
  slotZero : s.window.present 0 = false
  /-- Every present slot stands for a stream index below the acceptance limit
  (41_reassembler.md R111 e). -/
  belowLimit : ∀ c ∈ s.window, s.raBase.toNat + c.1 < limitOf s
  /-- Every present slot stands for a stream index below `2^64 − 1` (30_encoding.md R80). -/
  belowTop : ∀ c ∈ s.window, s.raBase.toNat + c.1 < maxWord
  /-- `ra_unasm` is the number of present slots (10_state.md R24, 41_reassembler.md R111 b). -/
  unasm : s.raUnasm.toNat = s.window.length
  /-- The sink has received `ra_base` bytes since reset (41_reassembler.md R111 c). -/
  written : s.raBase.toNat ≤ s.sink.bytes.length
  /-- The application has read no more than was written (10_state.md R50). -/
  readLe : s.sink.readCount ≤ s.sink.bytes.length
  /-- Once a byte was delivered, the sink buffers at most `C` bytes (41_reassembler.md R101,
  R111 f). -/
  bufferedLe : 0 < s.raBase.toNat → s.sink.buffered ≤ s.cfg.capacity.toNat
  /-- Since reset the sink's end event comes at most once, after every byte, exactly when `ra_ended`
  is set (20_memory.md R59, 10_state.md R27). -/
  trace : s.deliveredEvents <:+ s.sink.events
  /-- The end check left nothing to do (41_reassembler.md R102, R104, R111 d). -/
  endSettled : s.endDue = s.raEnded

/-- The sink at every command boundary, for a host that started it fresh before reset
(70_reset_and_hazards.md R166, item 2): it holds what the block wrote since reset and nothing else. -/
structure SinkInv (s : State) : Prop where
  /-- The sink has received exactly `ra_base` bytes (41_reassembler.md R111 c). -/
  written : s.sink.bytes.length = s.raBase.toNat
  /-- The sink buffers at most `C` bytes (41_reassembler.md R111 f). -/
  bufferedLe : s.sink.buffered ≤ s.cfg.capacity.toNat
  /-- The acceptance limit is `R + C` (41_reassembler.md R111 e). -/
  limit : limitOf s = s.sink.readCount + s.cfg.capacity.toNat
  /-- The sink's end event comes once, after every byte, exactly when `ra_ended` is set
  (20_memory.md R59, 10_state.md R27). -/
  trace : s.sink.events = s.sink.bytes.map .byte ++ (if s.raEnded then [.eof] else [])

/-- The absolute number a queue starts at, `next` when it is empty. -/
def queueStart (q : List Entry) (next : Nat) : Nat :=
  match q with
  | [] => next
  | e :: _ => e.start.toNat

/-- Each entry ends where the next one starts, the last one at `next` (10_state.md R39 b). -/
def contiguous : List Entry → Nat → Prop
  | [], _ => True
  | e :: q, next => e.endSeq = queueStart q next ∧ contiguous q next

/-- The sum of the lengths in sequence space (10_state.md R34). -/
def totalLen (q : List Entry) : Nat := (q.map Entry.len).sum

/-- Only the last entry of the queue carries a FIN, and no entry a SYN (10_state.md R45). -/
def finIsLast (q : List Entry) : Prop :=
  (∀ e ∈ q, e.syn = false) ∧ (∀ e ∈ q.dropLast, e.fin = false) ∧ (∀ e ∈ q.getLast?, e.fin = true)

/-- What 10_state.md R45 says of each state of the sender; in FIN_SENT the source is also ended and
consumed (42_sender.md R123). -/
def phaseInv (s : State) : Prop :=
  match s.sndState with
  | .closed => s.sndNext = 0 ∧ s.queue = []
  | .synSent => s.sndNext = 1 ∧ s.queue = [⟨0, true, false, []⟩]
  | .synAcked => 1 ≤ s.sndNext.toNat ∧ ∀ e ∈ s.queue, e.syn = false ∧ e.fin = false
  | .finSent => finIsLast s.queue ∧ s.source = ⟨[], true⟩

/-- The sender and its timer at every command boundary. -/
structure SndInv (s : State) : Prop where
  /-- Contiguity (10_state.md R39 b). -/
  chain : contiguous s.queue s.sndNext.toNat
  /-- No empty entry (10_state.md R39 c). -/
  lenPos : ∀ e ∈ s.queue, 1 ≤ e.len
  /-- A payload is at most CFG_MAX_PAYLOAD bytes (10_state.md R37). -/
  payloadLe : ∀ e ∈ s.queue, e.payload.length ≤ s.cfg.maxPayload.toNat
  /-- `snd_bif` is the sum of the entries' lengths (10_state.md R34). -/
  inFlight : s.sndBif.toNat = totalLen s.queue
  /-- At most `Q_DEPTH` entries (10_state.md R38). -/
  depth : ∀ d ∈ s.params.qDepth, s.queue.length ≤ d.toNat
  /-- `snd_window` is a `WIN_BITS`-bit value (10_state.md R35). -/
  windowFits : s.sndWindow.toNat < 2 ^ s.params.winBits
  /-- The timer runs exactly when the queue is not empty (10_state.md R44). -/
  running : s.tmrRunning = !s.queue.isEmpty
  /-- With nothing outstanding the timer is at its initial values (42_sender.md R118, R130). -/
  idle : s.queue = [] → s.tmrRto = s.cfg.initRto ∧ s.tmrConsec = 0 ∧ s.tmrElapsed = 0
  /-- The accumulator is below the timeout, or 0 (43_timer.md R136, R137, R140). -/
  elapsed : s.tmrElapsed = 0 ∨ s.tmrElapsed.toNat < s.tmrRto.toNat
  /-- The state machine's own invariant (10_state.md R45). -/
  phase : phaseInv s

/-- A good state at a command boundary, whatever the sink held at reset. -/
structure Inv (s : State) : Prop where
  host : HostInv s
  ra : RaInv s
  snd : SndInv s

/-! ### The words of the statements -/

/-- The opcodes of format N (30_encoding.md R73, R76). -/
def plainOpcodes : List (BitVec 8) := [0x00, 0x01, 0x02, 0x20, 0x21, 0x22, 0x23]

/-- A reserved command word, by its bits (30_encoding.md R81). -/
def reservedWord (w : CmdWord) : Prop :=
  let op := w.extractLsb' 0 8
  let modifier := w.extractLsb' 8 8
  (op ∉ plainOpcodes ∧ op ≠ 0x10 ∧ op ≠ 0x30)
    ∨ (op ∈ plainOpcodes ∧ modifier ≠ 0)
    ∨ (op = 0x10 ∧ w.extractLsb' 9 7 ≠ 0)
    ∨ (op = 0x30 ∧ modifier ∉ definedRegnos)

/-- An operand outside what the command's port field or DATA check admits (30_encoding.md R79,
R80), by the command word's opcode. -/
def badOperands (p : Params) (c : Command) : Prop :=
  let op := c.cmd.extractLsb' 0 8
  (op = 0x01 ∧ 2 ^ 32 ≤ c.opb.toNat)
    ∨ (op = 0x02 ∧ (2 ^ 32 ≤ c.opa.toNat ∨ 2 ^ 32 ≤ c.opb.toNat))
    ∨ (op = 0x21 ∧ (2 ^ 32 ≤ c.opa.toNat ∨ 2 ^ p.winBits ≤ c.opb.toNat))
    ∨ (op = 0x10 ∧ ((∃ m, p.dataMax = some m ∧ m < c.data.length)
        ∨ 2 ^ 64 - 1 < c.opa.toNat + c.data.length))

/-- `x` is an element of the candidate set K of 40_codec.md R87: a 64-bit absolute value that
encodes to the wire value `w`. -/
def candidate (w isn : Wire) (x : Nat) : Prop :=
  x < 2 ^ 64 ∧ x % 2 ^ 32 = (w - isn).toNat

/-- `x` is a candidate at the least distance from the checkpoint (40_codec.md R87). -/
def nearestCandidate (w isn : Wire) (c : Word) (x : Nat) : Prop :=
  candidate w isn x ∧
    ∀ y, candidate w isn y → ((x : Int) - c.toNat).natAbs ≤ ((y : Int) - c.toNat).natAbs

/-- The operands of RA_INSERT pass the checks of 30_encoding.md R80. -/
def insertAdmitted (s : State) : Prop :=
  (∀ m, s.params.dataMax = some m → s.port.data.length ≤ m) ∧
    s.port.opa.toNat + s.port.data.length ≤ 2 ^ 64 - 1

/-- The substring of the operands is truncated: `L > 0 ∧ e > lim` (41_reassembler.md R98). -/
def operandsTruncated (s : State) : Prop :=
  0 < s.port.data.length ∧ limitOf s < s.port.opa.toNat + s.port.data.length

/-- What slot `k` holds after the store step of an RA_INSERT with the state's operands: its own byte
if it is present, else the byte of DATA that stands for its stream index if that index is acceptable
(41_reassembler.md R98, R99). -/
def storedSlot (s : State) (k : Nat) : Option Byte :=
  let i := s.raBase.toNat + k
  match s.window.slot k with
  | some b => some b
  | none =>
    if s.port.opa.toNat ≤ i ∧ i < limitOf s then s.port.data[i - s.port.opa.toNat]? else none

/-- The lower bound of ack acceptance (42_sender.md R128). -/
def ackLowerBound (s : State) : Nat := queueStart s.queue s.sndNext.toNat

/-- The absolute value of the ack on the operand ports (42_sender.md R127). -/
def ackOperand (s : State) : Nat :=
  (unwrap s.params.unwrapTie (BitVec.ofNat 32 s.port.opa.toNat) s.cfg.isn s.sndNext).toNat

/-- The operands of SND_ACK pass the checks of 30_encoding.md R79. -/
def ackAdmitted (s : State) : Prop :=
  s.port.opa.toNat < 2 ^ 32 ∧ s.port.opb.toNat < 2 ^ s.params.winBits

/-- The ack is accepted (42_sender.md R128). -/
def ackCovers (s : State) : Prop :=
  ackLowerBound s ≤ ackOperand s ∧ ackOperand s ≤ s.sndNext.toNat

/-- RDREG of `regno` answers OK with `v` and changes nothing (44_control.md R147). -/
def readsAs (s : State) (regno : BitVec 8) (v : Word) : Prop :=
  exec (.rdreg regno) s = .next { s with answer := some ⟨.ok, v⟩ }

/-- The word of three flags in bits 0, 1 and 2. -/
def threeFlags (b0 b1 b2 : Bool) : Word :=
  BitVec.ofNat 64 (b0.toNat + 2 * b1.toNat + 4 * b2.toNat)

/-- The state with another value on the OPA port. -/
def withOpa (s : State) (x : Word) : State := { s with port := { s.port with opa := x } }

/-- The delivered bytes and the window agree with the logical stream `f` (41_reassembler.md R113). -/
def agreesWith (f : Nat → Byte) (s : State) : Prop :=
  s.delivered = (List.range s.raBase.toNat).map f ∧
    ∀ k b, s.window.slot k = some b → b = f (s.raBase.toNat + k)

end Sys2Proof.Machine
end

