-- ==== Sys2Proof/Certificates/Slice0/Obligations.lean ====
section
/-! DEFINITION. The statements about the model, for the provers. Each docstring names the rules of
spec/ it rests on. -/

open Sys2Proof Sys2Proof.Machine

/-! ### Encoding -/

/-- 30_encoding.md R73 to R76, R82: the decoder and the encoder are inverse to each other on the
well-formed commands and on the words that are not reserved. -/
def Obligations.DecodeInvertsEncode : Prop :=
  (∀ i : Instr, i.wellFormed = true → decode (encode i) = .ok i) ∧
    (∀ (w : CmdWord) (i : Instr), decode w = .ok i → i.wellFormed = true ∧ encode i = w)

/-- 30_encoding.md R83: the command words in hexadecimal, read by the decoder and written by the
encoder. -/
def Obligations.CommandWordsInHexadecimal : Prop :=
  decode 0x0000 = .ok .nop ∧ encode .nop = 0x0000 ∧
    decode 0x0001 = .ok .sncWrap ∧ encode .sncWrap = 0x0001 ∧
    decode 0x0002 = .ok .sncUnwrap ∧ encode .sncUnwrap = 0x0002 ∧
    decode 0x0010 = .ok (.raInsert false) ∧ encode (.raInsert false) = 0x0010 ∧
    decode 0x0110 = .ok (.raInsert true) ∧ encode (.raInsert true) = 0x0110 ∧
    decode 0x0020 = .ok .sndFill ∧ encode .sndFill = 0x0020 ∧
    decode 0x0021 = .ok .sndAck ∧ encode .sndAck = 0x0021 ∧
    decode 0x0022 = .ok .sndTick ∧ encode .sndTick = 0x0022 ∧
    decode 0x0023 = .ok .sndEmpty ∧ encode .sndEmpty = 0x0023 ∧
    decode 0x1030 = .ok (.rdreg 0x10) ∧
    (∀ r : BitVec 8, encode (.rdreg r) = (r.zeroExtend 16 <<< 8) ||| 0x30)

/-- 30_encoding.md R81, R82: the decoder rejects exactly the reserved words. -/
def Obligations.DecoderRejectsReservedWords : Prop :=
  ∀ w : CmdWord, (∃ e, decode w = .error e) ↔ reservedWord w

/-! ### The machine -/

/-- 30_encoding.md R71, R82, 60_exceptions.md R154: with a command next, a step samples its word and
operands and is the meaning of the instruction the word decodes to. -/
def Obligations.StepRunsDecodedCommand : Prop :=
  ∀ (s : State) (c : Command) (rest : List HostEvent) (i : Instr),
    s.host = .command c :: rest → HostInv s → decode c.cmd = .ok i →
      step s = exec i { s with host := rest, port := c }

/-- The same for the state in which a word of the opcode table is presented. How that state presents
it is the model's choice (log 7): `withFetchWord` puts one command in front of what the host does next,
its word the low bits of the one given and its operands the values left on the ports. -/
def Obligations.PresentedWordRuns : Prop :=
  ∀ (s : State) (nbits w : Nat) (i : Instr),
    HostInv s → decodeTableWord nbits w = some i →
      step (s.withFetchWord nbits w) =
        exec i { s with port := { s.port with cmd := BitVec.ofNat 16 (w % 2 ^ nbits) } }

/-- 60_exceptions.md R150, with R79, R80, R81: a command is answered ILLEGAL exactly for the five
causes, and then RES is 0 and nothing but the interface changes. -/
def Obligations.IllegalExactlyForBadCommands : Prop :=
  ∀ (s : State) (c : Command) (rest : List HostEvent),
    s.host = .command c :: rest → HostInv s →
      ∃ (t : State) (a : Answer), step s = .next t ∧ t.answer = some a ∧
        (a.status = .illegal ↔ reservedWord c.cmd ∨ badOperands s.params c) ∧
        (a.status = .illegal →
          a.res = 0 ∧ t = { s with host := rest, port := c, answer := some a })

/-- 60_exceptions.md R161: idle between commands, the block keeps all its state. That a step with no
host event is the idle one is the model's choice (log 7), and so is that the ports and the answer, of
which 10_state.md R16 says that the block keeps neither, still show the last command's (log 6). -/
def Obligations.IdleKeepsState : Prop :=
  ∀ s : State, s.host = [] → step s = .next s

/-- 10_state.md R51, 70_reset_and_hazards.md R162, R163, R165: what a reset leaves, whatever the
state before it, whatever the collaborators hold and whatever command is presented with it, and that
it does not touch the collaborators. That it is taken over collaborators that are not in the start
state of R166 is the model's reading (log 18). -/
def Obligations.ResetLeavesListedState : Prop :=
  ∀ (s : State) (cfg : Config) (presented : Option Command) (rest : List HostEvent),
    s.host = .reset cfg presented :: rest → configLegal s.params cfg = true →
      sinkLargeEnough s.sink cfg = true →
      ∃ t : State, step s = .next t ∧
        t.raBase = 0 ∧ (∀ k, t.window.present k = false) ∧ t.raUnasm = 0 ∧
        t.raEofValid = false ∧ t.raEofIndex = 0 ∧ t.raEnded = false ∧
        t.sndState = .closed ∧ t.sndNext = 0 ∧ t.sndBif = 0 ∧ t.sndWindow = 1 ∧ t.queue = [] ∧
        t.tmrRunning = false ∧ t.tmrElapsed = 0 ∧ t.tmrRto = cfg.initRto ∧ t.tmrConsec = 0 ∧
        t.cfg = cfg ∧ t.params = s.params ∧
        t.source = s.source ∧ t.sink = s.sink ∧ t.segOut = s.segOut ∧ t.host = rest

/-- 70_reset_and_hazards.md R166: the boot sequence starts the collaborators and resets the block.
That the command interface's ports keep what was driven and show no answer is the model's choice
(log 6), and so is the boot as one event with an empty segment output (log 16). -/
def Obligations.BootStartsEverything : Prop :=
  ∀ (s : State) (cfg : Config) (cap : Nat) (initial : List Byte) (rest : List HostEvent),
    s.host = .boot cfg cap initial :: rest → configLegal s.params cfg = true →
      cfg.capacity.toNat ≤ cap →
      step s = .next { State.resetWith s.params cfg cap with
        source := ⟨initial, false⟩, port := s.port, host := rest }

/-- 00_scope.md R6, 10_state.md R50, 20_memory.md R58, R61, 70_reset_and_hazards.md R166, R168: the
runs the model gives no meaning, each refused under its own name: a command, a reset or a boot under an
illegal configuration or with too small a sink, a write after the end, a read of too much. That each
stops the run, under which name, and in which order the duties are checked is the model's (log 8,
log 9). -/
def Obligations.BrokenHostDutiesRefused : Prop :=
  (∀ (s : State) (c : Command) (rest : List HostEvent), s.host = .command c :: rest →
    configLegal s.params s.cfg = false → step s = .refused .illegalConfiguration) ∧
  (∀ (s : State) (c : Command) (rest : List HostEvent), s.host = .command c :: rest →
    configLegal s.params s.cfg = true → s.sink.capacity < s.cfg.capacity.toNat →
    step s = .refused .sinkTooSmall) ∧
  (∀ (s : State) (cfg : Config) (p : Option Command) (rest : List HostEvent),
    s.host = .reset cfg p :: rest → configLegal s.params cfg = false →
    step s = .refused .illegalConfiguration) ∧
  (∀ (s : State) (cfg : Config) (p : Option Command) (rest : List HostEvent),
    s.host = .reset cfg p :: rest → configLegal s.params cfg = true →
    s.sink.capacity < cfg.capacity.toNat → step s = .refused .sinkTooSmall) ∧
  (∀ (s : State) (cfg : Config) (cap : Nat) (initial : List Byte) (rest : List HostEvent),
    s.host = .boot cfg cap initial :: rest → configLegal s.params cfg = false →
    step s = .refused .illegalConfiguration) ∧
  (∀ (s : State) (cfg : Config) (cap : Nat) (initial : List Byte) (rest : List HostEvent),
    s.host = .boot cfg cap initial :: rest → configLegal s.params cfg = true →
    cap < cfg.capacity.toNat → step s = .refused .sinkTooSmall) ∧
  (∀ (s : State) (cfg : Config), s.params.winBits ≠ 16 → configLegal s.params cfg = false) ∧
  (∀ (s : State) (b : Byte) (bytes : List Byte) (rest : List HostEvent),
    s.host = .srcWrite (b :: bytes) :: rest → s.source.ended = true →
    step s = .refused .sourceWriteAfterEnd) ∧
  (∀ (s : State) (n : Nat) (rest : List HostEvent),
    s.host = .sinkRead n :: rest → s.sink.bytes.length - s.sink.readCount < n →
    step s = .refused .sinkReadBeyond)

/-- 10_state.md R50, 20_memory.md R58, R60, R61: the host's actions on the collaborators between
commands, each changing nothing else. -/
def Obligations.HostActsOnCollaborators : Prop :=
  (∀ (s : State) (bytes : List Byte) (rest : List HostEvent),
    s.host = .srcWrite bytes :: rest → s.source.ended = false →
    step s = .next { s with
      host := rest, source := ⟨s.source.bytes ++ bytes, false⟩ }) ∧
  (∀ (s : State) (rest : List HostEvent), s.host = .srcEnd :: rest →
    step s = .next { s with host := rest, source := ⟨s.source.bytes, true⟩ }) ∧
  (∀ (s : State) (n : Nat) (rest : List HostEvent), s.host = .sinkRead n :: rest →
    n ≤ s.sink.bytes.length - s.sink.readCount →
    step s = .next { s with
      host := rest, sink := { s.sink with readCount := s.sink.readCount + n } })

/-- 10_state.md R39, R44, R45, R51, 41_reassembler.md R111: the state right after reset is good, for
every legal configuration and every sink large enough; and so is the model's reset state, whose
configuration is the model's choice (log 1). -/
def Obligations.ResetStateIsGood : Prop :=
  (∀ (p : Params) (cfg : Config) (cap : Nat), configLegal p cfg = true →
    cfg.capacity.toNat ≤ cap →
    Inv (State.resetWith p cfg cap) ∧ SinkInv (State.resetWith p cfg cap)) ∧
  Inv State.reset ∧ SinkInv State.reset

/-- 10_state.md R24, R34, R39, R44, R45, 20_memory.md R59, 41_reassembler.md R111: every step keeps
the invariants of the command boundary, a reset with a used sink (log 18) among them; and, where the host
asserts reset only with a sink to which nothing was written (70_reset_and_hazards.md R166, item 2),
the sink holds exactly what the block wrote since reset. -/
def Obligations.EveryStepKeepsInvariant : Prop :=
  (∀ s t : State, Inv s → step s = .next t → Inv t) ∧
  (∀ s t : State, Inv s → SinkInv s →
    (∀ (cfg : Config) (p : Option Command) (rest : List HostEvent),
      s.host = .reset cfg p :: rest → s.sink.events = []) →
    step s = .next t → SinkInv t)

/-- 10_state.md R19, 20_memory.md R70: no command writes the configuration, the structural
parameters or its own operands. -/
def Obligations.CommandsWriteNoConfiguration : Prop :=
  ∀ (i : Instr) (s t : State), exec i s = .next t →
    t.params = s.params ∧ t.cfg = s.cfg ∧ t.port = s.port ∧ t.host = s.host

/-! ### The codec -/

/-- 40_codec.md R86. -/
def Obligations.WrapAddsModulo : Prop :=
  ∀ (a : Word) (isn : Wire), (wrap a isn).toNat = (isn.toNat + a.toNat % 2 ^ 32) % 2 ^ 32

/-- 40_codec.md R87: `unwrap` returns a candidate nearest the checkpoint; of two equally near ones
the tie rule picks one. -/
def Obligations.UnwrapReturnsNearest : Prop :=
  ∀ (w isn : Wire) (c : Word),
    (∀ tie : UnwrapTie, nearestCandidate w isn c (unwrap tie w isn c).toNat) ∧
    (∀ x y : Nat, nearestCandidate w isn c x → nearestCandidate w isn c y → x < y →
      (unwrap .lower w isn c).toNat = x ∧ (unwrap .upper w isn c).toNat = y)

/-- 40_codec.md R89: when a tie happens and what each direction returns. -/
def Obligations.UnwrapTieDirection : Prop :=
  ∀ (w isn : Wire) (c : Word),
    ((∃ x y : Nat, x < y ∧ nearestCandidate w isn c x ∧ nearestCandidate w isn c y) ↔
      (((c.toNat : Int) - (w - isn).toNat) % 2 ^ 32 = 2 ^ 31 ∧ 2 ^ 31 ≤ c.toNat ∧
        c.toNat + 2 ^ 31 < 2 ^ 64)) ∧
    (((c.toNat : Int) - (w - isn).toNat) % 2 ^ 32 = 2 ^ 31 → 2 ^ 31 ≤ c.toNat →
      c.toNat + 2 ^ 31 < 2 ^ 64 →
      (unwrap .lower w isn c).toNat = c.toNat - 2 ^ 31 ∧
        (unwrap .upper w isn c).toNat = c.toNat + 2 ^ 31)

/-- 40_codec.md R90: the laws (a) to (f) of the codec. -/
def Obligations.CodecLaws : Prop :=
  (∀ (tie : UnwrapTie) (w isn : Wire) (c : Word), wrap (unwrap tie w isn c) isn = w) ∧
  (∀ (tie : UnwrapTie) (a : Word) (isn : Wire), unwrap tie (wrap a isn) isn a = a) ∧
  (∀ (tie : UnwrapTie) (w isn : Wire) (c : Word) (y : Nat), candidate w isn y →
    (((unwrap tie w isn c).toNat : Int) - c.toNat).natAbs ≤ ((y : Int) - c.toNat).natAbs) ∧
  (∀ (a : Word) (isn : Wire), a.toNat + 2 ^ 32 < 2 ^ 64 → wrap (a + 2 ^ 32) isn = wrap a isn) ∧
  (∀ (a : Word) (isn : Wire), wrap a isn = add32 (wrap a 0).toNat isn.toNat) ∧
  (∀ (tie : UnwrapTie) (w isn : Wire) (c : Word),
    unwrap tie w isn c = unwrap tie (sub32 w isn) 0 c) ∧
  (∀ (tie : UnwrapTie) (w isn : Wire) (c : Word),
    2 ^ 31 ≤ c.toNat → c.toNat ≤ 2 ^ 64 - 1 - 2 ^ 31 →
    (((unwrap tie w isn c).toNat : Int) - c.toNat).natAbs ≤ 2 ^ 31)

/-- 40_codec.md R91: SNC_WRAP answers the wire value and changes nothing. -/
def Obligations.SncWrapResult : Prop :=
  ∀ s : State, s.port.opb.toNat < 2 ^ 32 →
    exec .sncWrap s = .next { s with
      answer := some ⟨.ok, BitVec.ofNat 64 ((s.port.opb.toNat + s.port.opa.toNat) % 2 ^ 32)⟩ }

/-- 40_codec.md R92: SNC_UNWRAP answers the absolute value and changes nothing. -/
def Obligations.SncUnwrapResult : Prop :=
  ∀ s : State, s.port.opa.toNat < 2 ^ 32 → s.port.opb.toNat < 2 ^ 32 →
    exec .sncUnwrap s = .next { s with
      answer := some ⟨.ok, unwrap s.params.unwrapTie (BitVec.ofNat 32 s.port.opa.toNat)
        (BitVec.ofNat 32 s.port.opb.toNat) s.port.opc⟩ }

/-- 30_encoding.md R79: a set bit above a field's width is answered ILLEGAL. -/
def Obligations.TooWideOperandsIllegal : Prop :=
  (∀ s : State, 2 ^ 32 ≤ s.port.opb.toNat →
    exec .sncWrap s = .next { s with answer := some ⟨.illegal, 0⟩ }) ∧
  (∀ s : State, 2 ^ 32 ≤ s.port.opa.toNat ∨ 2 ^ 32 ≤ s.port.opb.toNat →
    exec .sncUnwrap s = .next { s with answer := some ⟨.illegal, 0⟩ }) ∧
  (∀ s : State, 2 ^ 32 ≤ s.port.opa.toNat ∨ 2 ^ s.params.winBits ≤ s.port.opb.toNat →
    exec .sndAck s = .next { s with answer := some ⟨.illegal, 0⟩ })

/-! ### The reassembler -/

/-- 30_encoding.md R80: DATA longer than DATA_MAX, or ending above `2^64 − 1`, is answered
ILLEGAL. -/
def Obligations.InsertDataChecks : Prop :=
  ∀ (last : Bool) (s : State),
    ((∃ m, s.params.dataMax = some m ∧ m < s.port.data.length) ∨
      2 ^ 64 - 1 < s.port.opa.toNat + s.port.data.length) →
    exec (.raInsert last) s = .next { s with answer := some ⟨.illegal, 0⟩ }

/-- 41_reassembler.md R97: after the end was signalled, an insert is a no-op answered OK. -/
def Obligations.InsertAfterEndDoesNothing : Prop :=
  ∀ (last : Bool) (s : State), insertAdmitted s → s.raEnded = true →
    exec (.raInsert last) s = .next { s with answer := some ⟨.ok, 0⟩ }

/-- 41_reassembler.md R96: RA_INSERT completes in every state, and writes only the reassembler's
state, the sink's trace and the answer. -/
def Obligations.InsertWritesOnlyReassembler : Prop :=
  ∀ (last : Bool) (s : State), ∃ t : State, exec (.raInsert last) s = .next t ∧
    t = { s with
      raBase := t.raBase
      window := t.window
      raUnasm := t.raUnasm
      raEofValid := t.raEofValid
      raEofIndex := t.raEofIndex
      raEnded := t.raEnded
      sink := { s.sink with events := t.sink.events }
      answer := t.answer }

/-- 41_reassembler.md R94, R98 to R102: the whole result of an insert in a good state: `d` bytes
drain, those before the first absent slot after the store step. -/
def Obligations.InsertResult : Prop :=
  ∀ (last : Bool) (s : State), RaInv s → s.raEnded = false → insertAdmitted s →
    ∃ (t : State) (d : Nat), exec (.raInsert last) s = .next t ∧
      (∀ j, j < d → storedSlot s j ≠ none) ∧ storedSlot s d = none ∧
      t.raBase.toNat = s.raBase.toNat + d ∧
      t.window.wf ∧ (∀ k, t.window.slot k = storedSlot s (k + d)) ∧
      t.raUnasm.toNat = t.window.length ∧
      t.sink.events = s.sink.events ++ ((List.range d).filterMap (storedSlot s)).map .byte ++
        (if t.raEnded then [.eof] else []) ∧
      (t.raEofValid = true ↔
        (last = true ∧ ¬ operandsTruncated s) ∨ (last = false ∧ s.raEofValid = true)) ∧
      (last = true ∧ ¬ operandsTruncated s →
        t.raEofIndex.toNat = s.port.opa.toNat + s.port.data.length) ∧
      (last = false ∨ operandsTruncated s → t.raEofIndex = s.raEofIndex) ∧
      (t.raEnded = true ↔
        t.raEofValid = true ∧ t.raEofIndex.toNat ≤ t.raBase.toNat ∧ t.raUnasm = 0) ∧
      t.answer = some ⟨.ok, 0⟩

/-- 41_reassembler.md R103: empty data with LAST = 1 sets the mark and triggers the end check. -/
def Obligations.InsertEmptyLast : Prop :=
  ∀ s : State, RaInv s → s.raEnded = false → insertAdmitted s → s.port.data = [] →
    exec (.raInsert true) s = .next { s with
      raEofValid := true
      raEofIndex := s.port.opa
      raEnded := decide (s.port.opa.toNat ≤ s.raBase.toNat ∧ s.raUnasm = 0)
      sink := { s.sink with events := s.sink.events ++
        (if s.port.opa.toNat ≤ s.raBase.toNat ∧ s.raUnasm = 0 then [.eof] else []) }
      answer := some ⟨.ok, 0⟩ }

/-- 41_reassembler.md R104: empty data with LAST = 0 changes nothing. -/
def Obligations.InsertEmptyNotLast : Prop :=
  ∀ s : State, RaInv s → insertAdmitted s → s.port.data = [] →
    exec (.raInsert false) s = .next { s with answer := some ⟨.ok, 0⟩ }

/-- 41_reassembler.md R105: entirely stale data stores nothing; with LAST = 1 it sets the mark, and
the end check fires if no byte is held. -/
def Obligations.InsertStaleData : Prop :=
  ∀ (last : Bool) (s : State), RaInv s → s.raEnded = false → insertAdmitted s →
    s.port.opa.toNat + s.port.data.length ≤ s.raBase.toNat →
    exec (.raInsert last) s = .next { s with
      raEofValid := last || s.raEofValid
      raEofIndex := if last then BitVec.ofNat 64 (s.port.opa.toNat + s.port.data.length)
        else s.raEofIndex
      raEnded := last && decide (s.raUnasm = 0)
      sink := { s.sink with events := s.sink.events ++
        (if last = true ∧ s.raUnasm = 0 then [.eof] else []) }
      answer := some ⟨.ok, 0⟩ }

/-- 41_reassembler.md R106: entirely beyond data stores nothing, and with LAST = 1 it clears the
mark. -/
def Obligations.InsertBeyondLimit : Prop :=
  ∀ (last : Bool) (s : State), RaInv s → s.raEnded = false → insertAdmitted s →
    s.port.data ≠ [] → limitOf s ≤ s.port.opa.toNat →
    exec (.raInsert last) s = .next { s with
      raEofValid := !last && s.raEofValid
      answer := some ⟨.ok, 0⟩ }

/-- 41_reassembler.md R112: two identical inserts with no read of the sink between them: the second
changes nothing. -/
def Obligations.InsertIsIdempotent : Prop :=
  ∀ (last : Bool) (s t : State), RaInv s → exec (.raInsert last) s = .next t →
    exec (.raInsert last) t = .next t

/-- 41_reassembler.md R113: while every inserted substring agrees with one logical stream `f`, the
bytes delivered to the sink since reset are a prefix of it; and once every index below `n` is delivered, held or acceptable in the
operands, at least `n` bytes are delivered. -/
def Obligations.SinkHoldsStreamPrefix : Prop :=
  ∀ (f : Nat → Byte) (last : Bool) (s t : State), RaInv s → agreesWith f s →
    (∀ i b, s.port.data[i]? = some b → b = f (s.port.opa.toNat + i)) →
    exec (.raInsert last) s = .next t →
    agreesWith f t ∧
    (s.raEnded = false → insertAdmitted s → ∀ n : Nat,
      (∀ i, i < n → i < s.raBase.toNat ∨ s.window.present (i - s.raBase.toNat) = true ∨
        (s.port.opa.toNat ≤ i ∧ i < s.port.opa.toNat + s.port.data.length ∧ i < limitOf s)) →
      n ≤ t.raBase.toNat)

/-- 41_reassembler.md R114: a truncated LAST insert clears the mark and does not end the stream, and
with the mark clear only an untruncated LAST insert can set it. -/
def Obligations.TruncatedLastDoesNotEnd : Prop :=
  ∀ (last : Bool) (s : State), s.raEnded = false → insertAdmitted s →
    (last = true ∧ operandsTruncated s) ∨ (last = false ∧ s.raEofValid = false) →
    ∃ (t : State) (bytes : List Byte), exec (.raInsert last) s = .next t ∧
      t.raEofValid = false ∧ t.raEofIndex = s.raEofIndex ∧ t.raEnded = false ∧
      t.sink.events = s.sink.events ++ bytes.map .byte

/-- 10_state.md R21: `ra_base` never decreases, and grows exactly with the bytes written to the
sink, whatever the command. -/
def Obligations.BaseCountsDeliveredBytes : Prop :=
  ∀ (i : Instr) (s t : State), RaInv s → exec i s = .next t →
    ∃ bytes : List Byte, t.sink.bytes = s.sink.bytes ++ bytes ∧
      t.raBase.toNat = s.raBase.toNat + bytes.length

/-- 10_state.md R27, 20_memory.md R59: once the end is signalled it stays so, and no command changes
the sink or the window again. -/
def Obligations.EndIsFinal : Prop :=
  ∀ (i : Instr) (s t : State), s.raEnded = true → exec i s = .next t →
    t.raEnded = true ∧ t.sink = s.sink ∧ t.raBase = s.raBase ∧ t.window = s.window ∧
      t.raUnasm = s.raUnasm

/-! ### The sender -/

/-- 42_sender.md R117, R118, R120: SND_FILL in CLOSED sends the SYN, at absolute sequence number 0.
That the timer starts on this transmission is R118, which the spec marks as general knowledge
(log 11, PRESUMED). -/
def Obligations.FillInClosedSendsSyn : Prop :=
  ∀ s : State, SndInv s → s.sndState = .closed →
    exec .sndFill s = .next { s with
      sndState := .synSent
      sndNext := 1
      sndBif := 1
      queue := [⟨0, true, false, []⟩]
      tmrRunning := true
      tmrElapsed := 0
      segOut := s.segOut ++ [⟨.new, s.cfg.isn, 0, true, false, [], 1, false, false⟩]
      answer := some ⟨.ok, 0⟩ }

/-- 42_sender.md R121: SND_FILL in SYN_SENT and in FIN_SENT does nothing. -/
def Obligations.FillWhileWaitingDoesNothing : Prop :=
  ∀ s : State, s.sndState = .synSent ∨ s.sndState = .finSent →
    exec .sndFill s = .next { s with answer := some ⟨.ok, 0⟩ }

/-- 42_sender.md R119, R122: in SYN_ACKED the loop emits one segment after another: it stops where
no segment is due, it stops after a FIN, and otherwise what follows a segment is a fill of its
own. -/
def Obligations.FillRepeatsTurns : Prop :=
  (∀ s : State, s.sndState = .synAcked → s.nextSegment = none →
    exec .sndFill s = .next { s with answer := some ⟨.ok, 0⟩ }) ∧
  (∀ (s : State) (n : Nat), s.sndState = .synAcked → s.nextSegment = some (n, true) →
    exec .sndFill s = .next { s.sendSegment n true with answer := some ⟨.ok, 0⟩ }) ∧
  (∀ (s : State) (n : Nat), s.sndState = .synAcked → s.nextSegment = some (n, false) →
    exec .sndFill s = exec .sndFill (s.sendSegment n false))

/-- 42_sender.md R115, R116, R122 to R125: which segment one turn of the loop emits. -/
def Obligations.DueSegment : Prop :=
  ∀ (s : State) (n : Nat) (fin : Bool),
    let room := (if s.sndWindow = 0 then 1 else s.sndWindow.toNat) - s.sndBif.toNat
    let avail := s.source.bytes.length
    s.nextSegment = some (n, fin) ↔
      0 < room ∧ (0 < avail ∨ s.source.ended = true) ∧
      (∀ d, s.params.qDepth = some d → s.queue.length ≠ d.toNat) ∧
      n = min (min avail room) s.cfg.maxPayload.toNat ∧
      (fin = true ↔ s.source.ended = true ∧ n = avail ∧ n + 1 ≤ room) ∧
      0 < n + fin.toNat ∧ s.sndNext.toNat + n + fin.toNat ≤ 2 ^ 64 - 1

/-- 42_sender.md R117, R118, R119, R123: what emitting the segment of one turn does. The timer's start
on transmission is R118, general knowledge (log 11, PRESUMED). Where no segment is due (`DueSegment`)
a sum may pass `2^64 − 1`; that it is then narrowed to 64 bits is the model's (log 5, DEDUCED). -/
def Obligations.SentSegment : Prop :=
  ∀ (s : State) (n : Nat) (fin : Bool), n ≤ s.source.bytes.length →
    s.sendSegment n fin = { s with
      sndState := if fin then .finSent else s.sndState
      source := { s.source with bytes := s.source.bytes.drop n }
      queue := s.queue ++ [⟨s.sndNext, false, fin, s.source.bytes.take n⟩]
      sndNext := BitVec.ofNat 64 (s.sndNext.toNat + (n + fin.toNat))
      sndBif := BitVec.ofNat 64 (s.sndBif.toNat + (n + fin.toNat))
      tmrRunning := true
      tmrElapsed := if s.tmrRunning then s.tmrElapsed else 0
      segOut := s.segOut ++ [⟨.new, wrap s.sndNext s.cfg.isn, s.sndNext, false, fin,
        s.source.bytes.take n, BitVec.ofNat 64 (n + fin.toNat), false, false⟩] }

/-- 42_sender.md R133 (a), (d): a fill in SYN_ACKED that emits anything leaves at most the effective
window in flight, and with no room it emits nothing. -/
def Obligations.FillStaysInWindow : Prop :=
  ∀ s t : State, s.sndState = .synAcked → exec .sndFill s = .next t →
    (t.segOut = s.segOut ∨
      t.sndBif.toNat ≤ (if s.sndWindow = 0 then 1 else s.sndWindow.toNat)) ∧
    ((if s.sndWindow = 0 then 1 else s.sndWindow.toNat) ≤ s.sndBif.toNat →
      t = { s with answer := some ⟨.ok, 0⟩ })

/-- 42_sender.md R133 (b), (c): the zero-window probe: with nothing in flight, one byte without FIN
where the source holds bytes, the FIN alone where it is ended and empty. What the segment does is R117
and R119; the timer's start from zero on its transmission is R118, general knowledge (log 11,
PRESUMED). -/
def Obligations.ZeroWindowProbe : Prop :=
  ∀ s : State, SndInv s → configLegal s.params s.cfg = true → s.sndState = .synAcked →
    s.sndWindow = 0 → s.sndBif = 0 → s.sndNext.toNat + 1 ≤ 2 ^ 64 - 1 →
    (∀ (b : Byte) (rest : List Byte), s.source.bytes = b :: rest →
      exec .sndFill s = .next { s with
        source := { s.source with bytes := rest }
        sndNext := s.sndNext + 1
        sndBif := 1
        queue := [⟨s.sndNext, false, false, [b]⟩]
        tmrRunning := true
        tmrElapsed := 0
        segOut := s.segOut ++
          [⟨.new, wrap s.sndNext s.cfg.isn, s.sndNext, false, false, [b], 1, false, false⟩]
        answer := some ⟨.ok, 0⟩ }) ∧
    (s.source = ⟨[], true⟩ →
      exec .sndFill s = .next { s with
        sndState := .finSent
        sndNext := s.sndNext + 1
        sndBif := 1
        queue := [⟨s.sndNext, false, true, []⟩]
        tmrRunning := true
        tmrElapsed := 0
        segOut := s.segOut ++
          [⟨.new, wrap s.sndNext s.cfg.isn, s.sndNext, false, true, [], 1, false, false⟩]
        answer := some ⟨.ok, 0⟩ })

/-- 20_memory.md R56, 42_sender.md R117, R119: SND_FILL queues what it emits, in order, and the
payloads it emits are the bytes it takes from the front of the source. -/
def Obligations.FillSendsSourceInOrder : Prop :=
  ∀ s t : State, exec .sndFill s = .next t →
    ∃ sent : List Entry, t.queue = s.queue ++ sent ∧
      t.segOut = s.segOut ++ sent.map (recordOf .new s.cfg.isn) ∧
      s.source.bytes = (sent.map Entry.payload).flatten ++ t.source.bytes ∧
      ∀ e ∈ sent, e.payload.length ≤ s.cfg.maxPayload.toNat

/-- 42_sender.md R119: SND_FILL completes in every state, and what it leaves unchanged. -/
def Obligations.FillWritesOnlySender : Prop :=
  ∀ s : State, ∃ t : State, exec .sndFill s = .next t ∧
    t = { s with
      sndState := t.sndState
      sndNext := t.sndNext
      sndBif := t.sndBif
      queue := t.queue
      tmrRunning := t.tmrRunning
      tmrElapsed := t.tmrElapsed
      source := { s.source with bytes := t.source.bytes }
      segOut := t.segOut
      answer := some ⟨.ok, 0⟩ }

/-- 42_sender.md R128: a rejected ack is a complete no-op with RES = 0. -/
def Obligations.RejectedAckDoesNothing : Prop :=
  ∀ s : State, ackAdmitted s → ¬ ackCovers s →
    exec .sndAck s = .next { s with answer := some ⟨.ok, 0⟩ }

/-- 42_sender.md R126, R128 to R130: an accepted ack records the window, pops every entry it covers,
resets and stops the timer, acknowledges the SYN, and then does what SND_FILL does; RES is 1. -/
def Obligations.AcceptedAckResult : Prop :=
  ∀ s : State, SndInv s → ackAdmitted s → ackCovers s →
    let left := s.queue.filter (fun e => decide (ackOperand s < e.endSeq))
    let popped := left.length < s.queue.length
    ∃ t : State,
      exec .sndFill { s with
        sndWindow := s.port.opb
        queue := left
        sndBif := BitVec.ofNat 64 (totalLen left)
        tmrRto := if popped then s.cfg.initRto else s.tmrRto
        tmrConsec := if popped then 0 else s.tmrConsec
        tmrRunning := !left.isEmpty
        tmrElapsed := if popped ∨ left = [] then 0 else s.tmrElapsed
        sndState := if s.sndState = .synSent ∧ 1 ≤ ackOperand s then .synAcked
          else s.sndState } = .next t ∧
      exec .sndAck s = .next { t with answer := some ⟨.ok, 1⟩ }

/-- 42_sender.md R128: an accepted ack that pops nothing leaves the timer alone. -/
def Obligations.DuplicateAckLeavesTimer : Prop :=
  ∀ (s : State) (e : Entry) (q : List Entry), SndInv s → ackAdmitted s → ackCovers s →
    s.queue = e :: q → ackOperand s < e.endSeq →
    ∃ t : State, exec .sndAck s = .next t ∧
      t.tmrRunning = s.tmrRunning ∧ t.tmrElapsed = s.tmrElapsed ∧ t.tmrRto = s.tmrRto ∧
      t.tmrConsec = s.tmrConsec ∧ t.sndWindow = s.port.opb ∧
      ∃ sent : List Entry, t.queue = s.queue ++ sent

/-- 42_sender.md R126: SND_ACK completes in every state, and what it leaves unchanged. -/
def Obligations.AckWritesOnlySender : Prop :=
  ∀ s : State, ∃ t : State, exec .sndAck s = .next t ∧
    t = { s with
      sndState := t.sndState
      sndNext := t.sndNext
      sndBif := t.sndBif
      sndWindow := t.sndWindow
      queue := t.queue
      tmrRunning := t.tmrRunning
      tmrElapsed := t.tmrElapsed
      tmrRto := t.tmrRto
      tmrConsec := t.tmrConsec
      source := { s.source with bytes := t.source.bytes }
      segOut := t.segOut
      answer := t.answer }

/-- 42_sender.md R131, 20_memory.md R63: SND_EMPTY sends one empty segment and changes no state. -/
def Obligations.EmptySegmentResult : Prop :=
  ∀ s : State, exec .sndEmpty s = .next { s with
    segOut := s.segOut ++
      [⟨.empty, wrap s.sndNext s.cfg.isn, s.sndNext, false, false, [], 0, false, false⟩]
    answer := some ⟨.ok, 0⟩ }

/-- 42_sender.md R132: no command changes `snd_state` but as the table says. -/
def Obligations.SenderStateTransitions : Prop :=
  ∀ (i : Instr) (s t : State), exec i s = .next t →
    t.sndState = s.sndState ∨
    (s.sndState = .closed ∧ t.sndState = .synSent ∧
      (i = .sndFill ∨ (i = .sndAck ∧ ackAdmitted s ∧ ackCovers s)) ∧
      t.segOut = s.segOut ++
        [⟨.new, wrap s.sndNext s.cfg.isn, s.sndNext, true, false, [], 1, false, false⟩]) ∨
    (s.sndState = .synSent ∧ (t.sndState = .synAcked ∨ t.sndState = .finSent) ∧ i = .sndAck ∧
      ackAdmitted s ∧ ackCovers s ∧ 1 ≤ ackOperand s) ∨
    (s.sndState = .synAcked ∧ t.sndState = .finSent ∧
      (i = .sndFill ∨ (i = .sndAck ∧ ackAdmitted s ∧ ackCovers s)) ∧
      ∃ r, t.segOut.getLast? = some r ∧ r.kind = .new ∧ r.fin = true)

/-- 10_state.md R33: `snd_next` never decreases. -/
def Obligations.SndNextNeverDecreases : Prop :=
  ∀ (i : Instr) (s t : State), SndInv s → exec i s = .next t →
    s.sndNext.toNat ≤ t.sndNext.toNat

/-! ### The timer -/

/-- 43_timer.md R135: with the timer stopped, SND_TICK changes nothing. -/
def Obligations.TickWhileStopped : Prop :=
  ∀ s : State, s.tmrRunning = false →
    exec .sndTick s = .next { s with answer := some ⟨.ok, 0⟩ }

/-- 43_timer.md R136, R137: below the timeout, SND_TICK only accumulates. -/
def Obligations.TickBelowTimeout : Prop :=
  ∀ s : State, s.tmrRunning = true → s.queue ≠ [] →
    min (s.tmrElapsed.toNat + s.port.opa.toNat) (2 ^ 64 - 1) < s.tmrRto.toNat →
    exec .sndTick s = .next { s with
      tmrElapsed := BitVec.ofNat 64 (min (s.tmrElapsed.toNat + s.port.opa.toNat) (2 ^ 64 - 1))
      answer := some ⟨.ok, 0⟩ }

/-- 43_timer.md R137 to R140, R144: an expiry retransmits the oldest segment verbatim, doubles the
timeout and counts only with a nonzero window or a SYN, and restarts the accumulator. -/
def Obligations.TickExpiry : Prop :=
  ∀ (s : State) (e : Entry) (q : List Entry), s.tmrRunning = true → s.queue = e :: q →
    s.tmrRto.toNat ≤ min (s.tmrElapsed.toNat + s.port.opa.toNat) (2 ^ 64 - 1) →
    exec .sndTick s = .next { s with
      segOut := s.segOut ++ [{ recordOf .new s.cfg.isn e with kind := .retx }]
      tmrRto := if s.sndWindow ≠ 0 ∨ e.syn = true then
        BitVec.ofNat 64 (min (2 * s.tmrRto.toNat) (2 ^ 64 - 1)) else s.tmrRto
      tmrConsec := if s.sndWindow ≠ 0 ∨ e.syn = true then
        BitVec.ofNat 64 (min (s.tmrConsec.toNat + 1) (2 ^ 64 - 1)) else s.tmrConsec
      tmrElapsed := 0
      answer := some ⟨.ok, 1⟩ }

/-- 43_timer.md R141: the timer running with an empty queue stops. -/
def Obligations.TickWithEmptyQueue : Prop :=
  ∀ s : State, s.tmrRunning = true → s.queue = [] →
    exec .sndTick s = .next { s with
      tmrRunning := false
      tmrElapsed := 0
      answer := some ⟨.ok, 0⟩ }

/-- 43_timer.md R143: three expiries that wait T, 2T and 4T leave the timeout at 2T, 4T and 8T and
the count one higher each time. -/
def Obligations.BackoffDoublesThreeTimes : Prop :=
  ∀ (s : State) (e : Entry) (q : List Entry), s.tmrRunning = true → s.queue = e :: q →
    s.sndWindow ≠ 0 → s.tmrElapsed = 0 → 8 * s.tmrRto.toNat < 2 ^ 64 →
    s.tmrConsec.toNat + 3 < 2 ^ 64 →
    ∃ t1 t2 t3 : State,
      exec .sndTick (withOpa s s.tmrRto) = .next t1 ∧
      t1.tmrRto.toNat = 2 * s.tmrRto.toNat ∧ t1.tmrConsec.toNat = s.tmrConsec.toNat + 1 ∧
      exec .sndTick (withOpa t1 t1.tmrRto) = .next t2 ∧
      t2.tmrRto.toNat = 4 * s.tmrRto.toNat ∧ t2.tmrConsec.toNat = s.tmrConsec.toNat + 2 ∧
      exec .sndTick (withOpa t2 t2.tmrRto) = .next t3 ∧
      t3.tmrRto.toNat = 8 * s.tmrRto.toNat ∧ t3.tmrConsec.toNat = s.tmrConsec.toNat + 3 ∧
      t3.queue = s.queue ∧ t3.segOut.length = s.segOut.length + 3

/-- 43_timer.md R145, 10_state.md R36: a backed-off expiry makes RETX_EXCEEDED 1 exactly when the
count before it had reached CFG_MAX_RETX. -/
def Obligations.RetxExceededThreshold : Prop :=
  ∀ (s : State) (e : Entry) (q : List Entry), s.tmrRunning = true → s.queue = e :: q →
    s.sndWindow ≠ 0 ∨ e.syn = true → s.tmrConsec.toNat + 1 < 2 ^ 64 →
    s.tmrRto.toNat ≤ min (s.tmrElapsed.toNat + s.port.opa.toNat) (2 ^ 64 - 1) →
    ∃ t : State, exec .sndTick s = .next t ∧
      (t.sndStatus.getLsbD 2 = true ↔ s.cfg.maxRetx.toNat ≤ s.tmrConsec.toNat)

/-- 43_timer.md R134, R142: SND_TICK completes in every state, and what it leaves unchanged. -/
def Obligations.TickWritesOnlyTimer : Prop :=
  ∀ s : State, ∃ t : State, exec .sndTick s = .next t ∧
    t = { s with
      tmrRunning := t.tmrRunning
      tmrElapsed := t.tmrElapsed
      tmrRto := t.tmrRto
      tmrConsec := t.tmrConsec
      segOut := t.segOut
      answer := t.answer }

/-! ### Control, and the units beside each other -/

/-- 44_control.md R146: NOP answers OK with RES = 0 and changes nothing. -/
def Obligations.NopResult : Prop :=
  ∀ s : State, exec .nop s = .next { s with answer := some ⟨.ok, 0⟩ }

/-- 10_state.md R47: the content of every register, ILLEGAL for every other number, and what each
register reads right after reset, for every legal configuration. -/
def Obligations.RegisterMap : Prop :=
  (∀ s : State,
    readsAs s 0x00 s.cfg.capacity ∧ readsAs s 0x01 s.cfg.initRto ∧
    readsAs s 0x02 s.cfg.maxPayload ∧ readsAs s 0x03 s.cfg.maxRetx ∧
    readsAs s 0x04 (BitVec.ofNat 64 s.cfg.isn.toNat) ∧
    readsAs s 0x05 (match s.params.qDepth with
      | none => 0
      | some d => d) ∧
    readsAs s 0x10 s.raBase ∧ readsAs s 0x11 s.raUnasm ∧
    readsAs s 0x12 (threeFlags (decide (s.raUnasm = 0)) s.raEofValid s.raEnded) ∧
    readsAs s 0x13 s.raEofIndex ∧
    readsAs s 0x20 (match s.sndState with
      | .closed => 0
      | .synSent => 1
      | .synAcked => 2
      | .finSent => 3) ∧
    readsAs s 0x21 s.sndNext ∧
    readsAs s 0x22 (BitVec.ofNat 64 (wrap s.sndNext s.cfg.isn).toNat) ∧
    readsAs s 0x23 s.sndBif ∧ readsAs s 0x24 (BitVec.ofNat 64 (s.sndWindow.toNat % 2 ^ s.params.winBits)) ∧
    readsAs s 0x25 (BitVec.ofNat 64 s.queue.length) ∧
    readsAs s 0x26 (threeFlags s.tmrRunning (decide (s.sndState = .finSent ∧ s.sndBif = 0))
      (decide (s.cfg.maxRetx.toNat < s.tmrConsec.toNat))) ∧
    readsAs s 0x28 s.tmrRto ∧ readsAs s 0x29 s.tmrElapsed ∧ readsAs s 0x2A s.tmrConsec) ∧
  (∀ (s : State) (regno : BitVec 8), regno ∉ definedRegnos →
    exec (.rdreg regno) s = .next { s with answer := some ⟨.illegal, 0⟩ }) ∧
  (∀ (p : Params) (cfg : Config) (cap : Nat), configLegal p cfg = true →
    let s := State.resetWith p cfg cap
    readsAs s 0x00 cfg.capacity ∧ readsAs s 0x01 cfg.initRto ∧ readsAs s 0x02 cfg.maxPayload ∧
    readsAs s 0x03 cfg.maxRetx ∧ readsAs s 0x04 (BitVec.ofNat 64 cfg.isn.toNat) ∧
    readsAs s 0x05 (match p.qDepth with
      | none => 0
      | some d => d) ∧
    readsAs s 0x10 0 ∧ readsAs s 0x11 0 ∧ readsAs s 0x12 1 ∧ readsAs s 0x13 0 ∧
    readsAs s 0x20 0 ∧ readsAs s 0x21 0 ∧ readsAs s 0x22 (BitVec.ofNat 64 cfg.isn.toNat) ∧
    readsAs s 0x23 0 ∧ readsAs s 0x24 1 ∧ readsAs s 0x25 0 ∧ readsAs s 0x26 0 ∧
    readsAs s 0x28 cfg.initRto ∧ readsAs s 0x29 0 ∧ readsAs s 0x2A 0)

/-- 00_scope.md R3, and the 'State written' and the pseudocode of 41_reassembler.md R96, 42_sender.md
R119, R126, R131 and 43_timer.md R134: the sender's commands neither read nor write the
reassembler or the output sink, and RA_INSERT neither reads nor writes the sender, the input source
or the segment output. -/
def Obligations.UnitsDoNotInterfere : Prop :=
  (∀ (i : Instr) (s t : State) (base : Word) (window : Memory) (unasm : Word) (eofValid : Bool)
    (eofIndex : Word) (ended : Bool) (sink : Sink),
    i = .sndFill ∨ i = .sndAck ∨ i = .sndTick ∨ i = .sndEmpty → exec i s = .next t →
    exec i { s with
      raBase := base, window := window, raUnasm := unasm, raEofValid := eofValid,
      raEofIndex := eofIndex, raEnded := ended, sink := sink } = .next { t with
      raBase := base, window := window, raUnasm := unasm, raEofValid := eofValid,
      raEofIndex := eofIndex, raEnded := ended, sink := sink }) ∧
  (∀ (last : Bool) (s t : State) (state : SndState) (next inFlight : Word) (peer : Word)
    (queue : List Entry) (running : Bool) (elapsed rto consec : Word) (source : Source)
    (segOut : List Record), exec (.raInsert last) s = .next t →
    exec (.raInsert last) { s with
      sndState := state, sndNext := next, sndBif := inFlight, sndWindow := peer, queue := queue,
      tmrRunning := running, tmrElapsed := elapsed, tmrRto := rto, tmrConsec := consec,
      source := source, segOut := segOut } = .next { t with
      sndState := state, sndNext := next, sndBif := inFlight, sndWindow := peer, queue := queue,
      tmrRunning := running, tmrElapsed := elapsed, tmrRto := rto, tmrConsec := consec,
      source := source, segOut := segOut })
end

