-- ==== Sys2Proof/Laws/Codec.lean ====
section
/-! SUPPORT. What the computation of `unwrap` (40_codec.md R88) can return: an element of its
candidate list that no other element of the list is nearer than, the least such element for the tie
direction `lower` and the greatest for `upper`. -/

namespace Sys2Proof.Machine

open Sys2Proof

theorem foldl_min_le : ∀ (l : List Nat) (b : Nat),
    l.foldl min b ≤ b ∧ ∀ x ∈ l, l.foldl min b ≤ x
  | [], b => ⟨Nat.le_refl _, by simp⟩
  | a :: l, b => by
    obtain ⟨h1, h2⟩ := foldl_min_le l (min b a)
    refine ⟨Nat.le_trans h1 (Nat.min_le_left _ _), fun x hx => ?_⟩
    rcases List.mem_cons.1 hx with rfl | hx
    · exact Nat.le_trans h1 (Nat.min_le_right _ _)
    · exact h2 x hx

theorem foldl_min_attained : ∀ (l : List Nat) (b : Nat),
    l.foldl min b = b ∨ l.foldl min b ∈ l
  | [], _ => .inl rfl
  | a :: l, b => by
    rcases foldl_min_attained l (min b a) with h | h
    · rcases Nat.le_total b a with hb | hb
      · left; rw [List.foldl_cons, h]; exact Nat.min_eq_left hb
      · right; rw [List.foldl_cons, h, Nat.min_eq_right hb]; exact List.mem_cons_self
    · right; exact List.mem_cons_of_mem _ h

/-- Nearest means: in the list, and no element of the list is nearer. -/
theorem mem_nearest_iff {l : List Nat} {c x : Nat} (hd : ∀ y ∈ l, distance y c < 2 ^ 64) :
    x ∈ nearest l c ↔ x ∈ l ∧ ∀ y ∈ l, distance x c ≤ distance y c := by
  have hle : ∀ y ∈ l, leastDistance l c ≤ distance y c := fun y hy =>
    (foldl_min_le _ _).2 _ (List.mem_map.2 ⟨y, hy, rfl⟩)
  simp only [nearest, List.mem_filter, decide_eq_true_eq]
  constructor
  · rintro ⟨hx, he⟩
    exact ⟨hx, fun y hy => he ▸ hle y hy⟩
  · rintro ⟨hx, hmin⟩
    refine ⟨hx, Nat.le_antisymm ?_ (hle x hx)⟩
    rcases foldl_min_attained (l.map (distance · c)) (2 ^ 64) with h | h
    · exact Nat.le_trans (Nat.le_of_lt (hd x hx)) (Nat.le_of_eq h.symm)
    · obtain ⟨y, hy, he⟩ := List.mem_map.1 h
      exact Nat.le_trans (hmin y hy) (Nat.le_of_eq he)

theorem nearest_ne_nil {l : List Nat} {c : Nat} (hl : l ≠ [])
    (hd : ∀ y ∈ l, distance y c < 2 ^ 64) : nearest l c ≠ [] := by
  have hn : l.map (distance · c) ≠ [] := by simpa using hl
  rcases foldl_min_attained (l.map (distance · c)) (2 ^ 64) with h | h
  · obtain ⟨a, ha⟩ := List.exists_mem_of_ne_nil l hl
    have := (foldl_min_le (l.map (distance · c)) (2 ^ 64)).2 _ (List.mem_map.2 ⟨a, ha, rfl⟩)
    have := hd a ha
    omega
  · obtain ⟨y, hy, he⟩ := List.mem_map.1 h
    exact List.ne_nil_of_mem (List.mem_filter.2 ⟨hy, decide_eq_true he⟩)

/-- The candidates of R88: the value of the offset in the checkpoint's 2^32 block and in the two
blocks beside it, as far as they lie in [0, 2^64). -/
theorem mem_unwrapCandidates {w isn : Wire} {c : Word} {x : Nat} :
    x ∈ unwrapCandidates w isn c ↔
      x < 2 ^ 64 ∧ x % 2 ^ 32 = (w - isn).toNat ∧
        c.toNat / 2 ^ 32 ≤ x / 2 ^ 32 + 1 ∧ x / 2 ^ 32 ≤ c.toNat / 2 ^ 32 + 1 := by
  have hoff : (w - isn).toNat < 2 ^ 32 := (w - isn).isLt
  have hc := c.isLt
  unfold unwrapCandidates sub32
  dsimp only
  generalize (w - isn).toNat = off at *
  generalize c.toNat = k at *
  split <;> split <;>
    simp only [List.mem_append, List.mem_cons, List.not_mem_nil, or_false, false_or] <;> omega

theorem unwrapCandidates_sorted (w isn : Wire) (c : Word) :
    (unwrapCandidates w isn c).Pairwise (· < ·) := by
  have hoff : (w - isn).toNat < 2 ^ 32 := (w - isn).isLt
  unfold unwrapCandidates sub32
  dsimp only
  generalize (w - isn).toNat = off at *
  generalize c.toNat = k at *
  split <;> split <;> simp <;> omega

theorem unwrapCandidates_near (w isn : Wire) (c : Word) :
    ∀ y ∈ unwrapCandidates w isn c, distance y c.toNat < 2 ^ 64 := by
  intro y hy
  have h := (mem_unwrapCandidates.1 hy).1
  have hc := c.isLt
  unfold distance; omega

/-- What `unwrap` returns, said once. -/
theorem unwrap_spec (tie : UnwrapTie) (w isn : Wire) (c : Word) :
    (unwrap tie w isn c).toNat ∈ nearest (unwrapCandidates w isn c) c.toNat ∧
      (tie = .lower → ∀ y ∈ nearest (unwrapCandidates w isn c) c.toNat,
        (unwrap tie w isn c).toNat ≤ y) ∧
      (tie = .upper → ∀ y ∈ nearest (unwrapCandidates w isn c) c.toNat,
        y ≤ (unwrap tie w isn c).toNat) := by
  have hne : unwrapCandidates w isn c ≠ [] := by simp [unwrapCandidates]
  have hn := nearest_ne_nil hne (unwrapCandidates_near w isn c)
  have hsort : (nearest (unwrapCandidates w isn c) c.toNat).Pairwise (· < ·) :=
    (unwrapCandidates_sorted w isn c).filter _
  have hlt : ∀ x ∈ nearest (unwrapCandidates w isn c) c.toNat, x < 2 ^ 64 := fun x hx =>
    (mem_unwrapCandidates.1 (List.mem_filter.1 hx).1).1
  unfold unwrap
  generalize nearest (unwrapCandidates w isn c) c.toNat = t at *
  cases tie with
  | lower =>
    cases t with
    | nil => exact absurd rfl hn
    | cons a t =>
      have ha : (BitVec.ofNat 64 a).toNat = a := by
        rw [BitVec.toNat_ofNat, Nat.mod_eq_of_lt (hlt a List.mem_cons_self)]
      refine ⟨by simp [ha], fun _ y hy => ?_, nofun⟩
      simp only [List.headD_cons, ha]
      rcases List.mem_cons.1 hy with rfl | hy
      · exact Nat.le_refl _
      · exact Nat.le_of_lt ((List.pairwise_cons.1 hsort).1 y hy)
  | upper =>
    have hl : t.getLastD 0 = t.getLast hn := by
      rw [List.getLastD_eq_getLast?, List.getLast?_eq_some_getLast hn]; rfl
    have hm := List.getLast_mem hn
    have ha : (BitVec.ofNat 64 (t.getLast hn)).toNat = t.getLast hn := by
      rw [BitVec.toNat_ofNat, Nat.mod_eq_of_lt (hlt _ hm)]
    refine ⟨by simp only [hl, ha]; exact hm, nofun, fun _ y hy => ?_⟩
    simp only [hl, ha]
    have hsplit := List.dropLast_concat_getLast hn
    rw [← hsplit] at hsort hy
    rcases List.mem_append.1 hy with hy | hy
    · exact Nat.le_of_lt ((List.pairwise_append.1 hsort).2.2 y hy _ (by simp))
    · simp at hy; omega

end Sys2Proof.Machine
end

