-- ==== Sys2Proof/Laws/Memory.lean ====
section
/-! SUPPORT. The window's operations: every one keeps the canonical form, a slot read after a store
or a shift is known, and two windows in canonical form with the same slots are equal. -/

namespace Sys2Proof.Machine

open Sys2Proof

@[simp] theorem Memory.slot_nil (k : Nat) : Memory.slot [] k = none := rfl

@[simp] theorem Memory.slot_cons (c : Host.Cell) (m : Memory) (k : Nat) :
    Memory.slot (c :: m) k = if k = c.1 then some c.2 else Memory.slot m k := rfl

theorem Memory.wf_nil : Memory.wf [] := List.Pairwise.nil

theorem Memory.mem_of_slot {m : Memory} {k : Nat} {b : Byte} (h : m.slot k = some b) :
    (k, b) ∈ m := by
  induction m with
  | nil => simp at h
  | cons c m ih =>
    rw [slot_cons] at h
    split at h
    · next hk =>
      obtain ⟨j, b'⟩ := c
      simp_all
    · exact List.mem_cons_of_mem _ (ih h)

theorem Memory.slot_none_of_lt {m : Memory} {k : Nat} (h : ∀ c ∈ m, k < c.1) :
    m.slot k = none := by
  cases hs : m.slot k with
  | none => rfl
  | some b => exact absurd (h _ (mem_of_slot hs)) (Nat.lt_irrefl k)

/-- In canonical form a listed cell is the slot's content. -/
theorem Memory.slot_of_mem {m : Memory} (hw : m.wf) {k : Nat} {b : Byte} (h : (k, b) ∈ m) :
    m.slot k = some b := by
  induction m with
  | nil => simp at h
  | cons c m ih =>
    obtain ⟨hc, hw⟩ := List.pairwise_cons.1 hw
    rw [slot_cons]
    rcases List.mem_cons.1 h with rfl | h
    · simp
    · rw [if_neg (Nat.ne_of_gt (hc _ h)), ih hw h]

theorem Memory.slot_eq_some_iff {m : Memory} (hw : m.wf) {k : Nat} {b : Byte} :
    m.slot k = some b ↔ (k, b) ∈ m :=
  ⟨mem_of_slot, slot_of_mem hw⟩

theorem Memory.present_iff {m : Memory} {k : Nat} :
    m.present k = true ↔ ∃ b, m.slot k = some b := by
  simp [Memory.present, Option.isSome_iff_exists]

/-- Read after write. -/
@[simp] theorem Memory.slot_store (m : Memory) (j k : Nat) (b : Byte) :
    (m.store k b).slot j = if j = k then some b else m.slot j := by
  induction m with
  | nil => simp [Memory.store]
  | cons c m ih =>
    obtain ⟨i, c⟩ := c
    simp only [Memory.store]
    split
    · rfl
    · split
      · next h1 h2 => subst h2; simp only [slot_cons]; split <;> simp_all
      · next h1 h2 =>
        simp only [slot_cons, ih]
        by_cases hj : j = k
        · subst hj; rw [if_neg (by omega)]; simp
        · simp [hj]

theorem Memory.mem_store {m : Memory} {k : Nat} {b : Byte} {c : Host.Cell}
    (h : c ∈ m.store k b) : c = (k, b) ∨ c ∈ m := by
  induction m with
  | nil => simpa [Memory.store] using h
  | cons d m ih =>
    obtain ⟨i, d⟩ := d
    simp only [Memory.store] at h
    split at h
    · simpa using h
    · split at h
      · rcases List.mem_cons.1 h with h | h
        · exact .inl h
        · exact .inr (List.mem_cons_of_mem _ h)
      · rcases List.mem_cons.1 h with h | h
        · exact .inr (h ▸ List.mem_cons_self)
        · exact (ih h).imp id (List.mem_cons_of_mem _)

/-- A store keeps the canonical form. -/
theorem Memory.wf_store {m : Memory} (hw : m.wf) (k : Nat) (b : Byte) : (m.store k b).wf := by
  induction m with
  | nil => simp [Memory.store, Memory.wf]
  | cons c m ih =>
    obtain ⟨i, c⟩ := c
    obtain ⟨hc, hm⟩ := List.pairwise_cons.1 hw
    simp only [Memory.store]
    split
    · next h =>
      refine List.pairwise_cons.2 ⟨fun d hd => ?_, hw⟩
      rcases List.mem_cons.1 hd with rfl | hd
      · exact h
      · exact Nat.lt_trans h (hc d hd)
    · split
      · next h1 h2 => subst h2; exact List.pairwise_cons.2 ⟨hc, hm⟩
      · next h1 h2 =>
        refine List.pairwise_cons.2 ⟨fun d hd => ?_, ih hm⟩
        rcases mem_store hd with rfl | hd
        · exact (by simp at h1 ⊢; omega)
        · exact hc d hd

/-- A store into an absent slot lists one more cell. -/
theorem Memory.length_store {m : Memory} {k : Nat} {b : Byte} (h : m.slot k = none) :
    (m.store k b).length = m.length + 1 := by
  induction m with
  | nil => rfl
  | cons c m ih =>
    obtain ⟨i, c⟩ := c
    rw [slot_cons] at h
    simp only [Memory.store]
    split at h
    · cases h
    · next hk =>
      split
      · rfl
      · simp [ih h]

theorem Memory.mem_shift {m : Memory} {c : Host.Cell} :
    c ∈ m.shift ↔ (c.1 + 1, c.2) ∈ m := by
  obtain ⟨j, b⟩ := c
  simp only [Memory.shift, List.mem_map, List.mem_filter, bne_iff_ne]
  constructor
  · rintro ⟨⟨i, d⟩, ⟨hm, hi⟩, heq⟩
    simp only [Prod.mk.injEq] at heq hi
    obtain ⟨rfl, rfl⟩ := heq
    rwa [show i - 1 + 1 = i by omega]
  · intro h
    exact ⟨(j + 1, b), ⟨h, by simp⟩, by simp⟩

/-- A shift keeps the canonical form. -/
theorem Memory.wf_shift {m : Memory} (hw : m.wf) : m.shift.wf := by
  have hf : (m.filter (fun c => c.1 != 0)).Pairwise (fun a b => a.1 < b.1) := hw.filter _
  refine List.pairwise_map.2 (hf.imp_of_mem ?_)
  intro a b ha hb h
  have h1 := (List.mem_filter.1 ha).2
  simp at h1
  simp; omega

/-- After a shift, slot `k` is the former slot `k + 1`. -/
theorem Memory.slot_shift (m : Memory) (k : Nat) : m.shift.slot k = m.slot (k + 1) := by
  induction m with
  | nil => rfl
  | cons c m ih =>
    obtain ⟨i, b⟩ := c
    by_cases hi : i = 0
    · subst hi
      have : Memory.shift ((0, b) :: m) = Memory.shift m := by simp [Memory.shift]
      rw [this, ih]; simp
    · have : Memory.shift ((i, b) :: m) = (i - 1, b) :: Memory.shift m := by
        simp [Memory.shift, hi]
      rw [this]
      simp only [slot_cons, ih]
      congr 1
      exact propext (by omega)

/-- A shift with slot 0 present lists one cell less. -/
theorem Memory.length_shift {m : Memory} (hw : m.wf) {b : Byte} (h : m.slot 0 = some b) :
    m.shift.length + 1 = m.length := by
  cases m with
  | nil => simp at h
  | cons c m =>
    obtain ⟨i, d⟩ := c
    obtain ⟨hc, hm⟩ := List.pairwise_cons.1 hw
    have hpos : ∀ c ∈ m, c.1 ≠ 0 := fun c hcm => by have := hc c hcm; omega
    have hi : i = 0 := by
      rw [slot_cons] at h
      split at h
      · next h0 => exact h0.symm
      · exact absurd rfl (hpos _ (mem_of_slot h))
    subst hi
    have : m.filter (fun c => c.1 != 0) = m := List.filter_eq_self.2 (by simpa using hpos)
    simp [Memory.shift, this]

/-- In canonical form the offsets below a bound are at most the bound many. -/
theorem Memory.length_le {m : Memory} (hw : m.wf) : ∀ {lo hi : Nat}, lo ≤ hi →
    (∀ c ∈ m, lo ≤ c.1 ∧ c.1 < hi) → m.length ≤ hi - lo := by
  induction m with
  | nil => intro lo hi _ _; simp
  | cons c m ih =>
    intro lo hi hlo h
    obtain ⟨hc, hm⟩ := List.pairwise_cons.1 hw
    have h0 := h c List.mem_cons_self
    have := ih hm (lo := c.1 + 1) (hi := hi) (by omega)
      (fun d hd => ⟨hc d hd, (h d (List.mem_cons_of_mem _ hd)).2⟩)
    simp only [List.length_cons]; omega

/-- Equal slots, equal windows: the canonical form is canonical. -/
theorem Memory.ext_slots {m n : Memory} (hm : m.wf) (hn : n.wf)
    (h : ∀ k, m.slot k = n.slot k) : m = n := by
  induction m generalizing n with
  | nil =>
    cases n with
    | nil => rfl
    | cons d n => have := h d.1; simp at this
  | cons c m ih =>
    cases n with
    | nil => have := h c.1; simp at this
    | cons d n =>
      obtain ⟨hc, hm'⟩ := List.pairwise_cons.1 hm
      obtain ⟨hd, hn'⟩ := List.pairwise_cons.1 hn
      have e1 : (c.1, c.2) ∈ d :: n := mem_of_slot (by rw [← h]; simp)
      have e2 : (d.1, d.2) ∈ c :: m := mem_of_slot (by rw [h]; simp)
      have hcd : c = d := by
        rcases List.mem_cons.1 e1 with h1 | h1
        · exact h1
        · rcases List.mem_cons.1 e2 with h2 | h2
          · exact h2.symm
          · have := hd _ h1; have := hc _ h2; simp at *; omega
      subst hcd
      congr 1
      refine ih hm' hn' fun k => ?_
      have hk := h k
      rw [slot_cons, slot_cons] at hk
      by_cases hkc : k = c.1
      · subst hkc
        rw [slot_none_of_lt hc, slot_none_of_lt hd]
      · simpa [hkc] using hk

end Sys2Proof.Machine
end

