-- ==== Sys2Proof/Laws/Operands.lean ====
section
/-! SUPPORT. What the operand checks and the operand fields say about the value on a port. -/

namespace Sys2Proof.Machine

open Sys2Proof

/-- A port fits a field when its value does (30_encoding.md R79). -/
theorem fitsIn_iff (n : Nat) (x : Word) : fitsIn n x = true ↔ x.toNat < 2 ^ n := by
  unfold fitsIn
  rw [beq_iff_eq, ← BitVec.toNat_inj, BitVec.toNat_ushiftRight, Nat.shiftRight_eq_div_pow]
  simp [Nat.div_eq_zero_iff]

theorem dataFits_iff (p : Params) (len : Nat) :
    dataFits p len = true ↔ ∀ m, p.dataMax = some m → len ≤ m := by
  unfold dataFits
  cases p.dataMax <;> simp

theorem wireField_eq (x : Word) : wireField x = BitVec.ofNat 32 x.toNat := by
  apply BitVec.eq_of_toNat_eq; simp [wireField]

/-- A window operand that passes its check is the whole port (30_encoding.md R78, R79). -/
theorem windowField_of_fits {p : Params} {x : Word} (h : x.toNat < 2 ^ p.winBits) :
    windowField p x = x := by
  apply BitVec.eq_of_toNat_eq
  rw [windowField, lowBits, Nat.mod_eq_of_lt h, BitVec.toNat_ofNat, Nat.mod_eq_of_lt x.isLt]

/-- The low bits of a word fit the field. -/
theorem lowBits_lt (n : Nat) (x : Word) : (lowBits n x).toNat < 2 ^ n := by
  rw [lowBits, BitVec.toNat_ofNat]
  exact Nat.lt_of_le_of_lt (Nat.mod_le _ _) (Nat.mod_lt _ (Nat.two_pow_pos n))

end Sys2Proof.Machine
end

