-- ==== Sys2Proof/Laws/Ops.lean ====
section
/-! SUPPORT. What the shared operations can do, said once each: the answer, the emission of a new
segment (42_sender.md R117), the timer (R118, R129, R130), and the accepted ack. -/

namespace Sys2Proof.Machine

open Sys2Proof

@[simp] theorem respondOk_eq (s : State) (r : Word) :
    respondOk s r = .next { s with answer := some ⟨.ok, r⟩ } := rfl

@[simp] theorem raiseIllegal_eq (s : State) :
    raiseIllegal s = .next { s with answer := some ⟨.illegal, 0⟩ } := rfl

theorem timerStart_eq (s : State) :
    s.timerStart =
      { s with tmrRunning := true, tmrElapsed := if s.tmrRunning then s.tmrElapsed else 0 } := by
  obtain ⟨⟩ := s
  simp only [State.timerStart, State.timerRestart]
  split <;> simp_all

/-- All that emitting a new segment does (42_sender.md R117, R118). -/
theorem emitNew_eq (s : State) (syn fin : Bool) (payload : List Byte) :
    s.emitNew syn fin payload =
      { s with
        queue := s.queue ++ [⟨s.sndNext, syn, fin, payload⟩]
        sndNext := BitVec.ofNat 64
          (s.sndNext.toNat + (payload.length + syn.toNat + fin.toNat))
        sndBif := BitVec.ofNat 64
          (s.sndBif.toNat + (payload.length + syn.toNat + fin.toNat))
        segOut := s.segOut ++ [recordOf .new s.cfg.isn ⟨s.sndNext, syn, fin, payload⟩]
        tmrRunning := true
        tmrElapsed := if s.tmrRunning then s.tmrElapsed else 0 } := by
  unfold State.emitNew
  rw [timerStart_eq]
  rfl

theorem ackTimerReset_eq (s : State) (popped : Bool) :
    s.ackTimerReset popped =
      { s with
        tmrRunning := popped || s.tmrRunning
        tmrElapsed := if popped then 0 else s.tmrElapsed
        tmrRto := if popped then s.cfg.initRto else s.tmrRto
        tmrConsec := if popped then 0 else s.tmrConsec } := by
  cases popped <;> rfl

theorem ackSyn_eq (s : State) (a : Nat) :
    s.ackSyn a =
      { s with
        sndState := if s.sndState = .synSent ∧ 1 ≤ a then .synAcked else s.sndState } := by
  unfold State.ackSyn; split <;> rfl

theorem ackTimerStop_eq (s : State) :
    s.ackTimerStop =
      { s with
        tmrRunning := !s.queue.isEmpty && s.tmrRunning
        tmrElapsed := if s.queue.isEmpty then 0 else s.tmrElapsed } := by
  unfold State.ackTimerStop State.timerStop
  cases s.queue.isEmpty <;> rfl

/-- All that an accepted ack does before its `fill()` (42_sender.md R129, R130). -/
theorem ackRecorded_eq (s : State) (a : Nat) (window : Word) :
    let popped := !(ackedEntries a s.queue).isEmpty
    let left := unackedEntries a s.queue
    s.ackRecorded a window =
      { s with
        sndWindow := window
        queue := left
        sndBif := (ackedEntries a s.queue).foldl
          (fun b e => BitVec.ofNat 64 (b.toNat - e.len)) s.sndBif
        tmrRto := if popped then s.cfg.initRto else s.tmrRto
        tmrConsec := if popped then 0 else s.tmrConsec
        tmrRunning := !left.isEmpty && (popped || s.tmrRunning)
        tmrElapsed := if left.isEmpty then 0 else if popped then 0 else s.tmrElapsed
        sndState := if s.sndState = .synSent ∧ 1 ≤ a then .synAcked else s.sndState } := by
  simp only [State.ackRecorded]
  rw [ackTimerStop_eq, ackSyn_eq, ackTimerReset_eq]
  rfl

/-- Backoff, said once (43_timer.md R139). -/
theorem backoff_eq (s : State) (front : Entry) :
    s.backoff front =
      { s with
        tmrRto := if s.sndWindow ≠ 0 ∨ front.syn = true then sat64 (2 * s.tmrRto.toNat)
          else s.tmrRto
        tmrConsec := if s.sndWindow ≠ 0 ∨ front.syn = true then sat64 (s.tmrConsec.toNat + 1)
          else s.tmrConsec } := by
  unfold State.backoff; split <;> rfl

end Sys2Proof.Machine
end

