-- ==== Sys2Proof/Laws/PerInstr.lean ====
section
/-! SUPPORT. Statements made per instruction: the low byte of a command's word is its opcode, the
high byte its modifier bits (30_encoding.md R72, R76). -/

namespace Sys2Proof.Laws

open Sys2Proof

/-- The two bytes of the command word of `i`. -/
def OpcodeByte.Statement (i : Instr) : Prop :=
  (encode i).extractLsb' 0 8 = opcode i ∧ (encode i).extractLsb' 8 8 = modifierBits i

/-- The two bytes of two concatenated bytes. -/
theorem bytes_of_append (hi lo : BitVec 8) :
    ((hi ++ lo : CmdWord).extractLsb' 0 8 = lo) ∧ ((hi ++ lo : CmdWord).extractLsb' 8 8 = hi) := by
  constructor <;> ext k hk <;> rw [BitVec.getElem_extractLsb']
  · exact BitVec.getLsbD_append.trans (by simp [hk])
  · exact BitVec.getLsbD_append.trans (by simp [hk])

theorem OpcodeByte.nop : OpcodeByte.Statement .nop := bytes_of_append _ _

theorem OpcodeByte.sncWrap : OpcodeByte.Statement .sncWrap := bytes_of_append _ _

theorem OpcodeByte.sncUnwrap : OpcodeByte.Statement .sncUnwrap := bytes_of_append _ _

theorem OpcodeByte.raInsert (last : Bool) : OpcodeByte.Statement (.raInsert last) := bytes_of_append _ _

theorem OpcodeByte.sndFill : OpcodeByte.Statement .sndFill := bytes_of_append _ _

theorem OpcodeByte.sndAck : OpcodeByte.Statement .sndAck := bytes_of_append _ _

theorem OpcodeByte.sndTick : OpcodeByte.Statement .sndTick := bytes_of_append _ _

theorem OpcodeByte.sndEmpty : OpcodeByte.Statement .sndEmpty := bytes_of_append _ _

theorem OpcodeByte.rdreg (regno : BitVec 8) : OpcodeByte.Statement (.rdreg regno) := bytes_of_append _ _

end Sys2Proof.Laws
end

