-- ==== Sys2Proof/Laws/Sender.lean ====
section
/-! SUPPORT. What the send loop can do (42_sender.md R119 to R125), said once: the bounds of a due
segment, what a sent one changes, and the induction over the loop. -/

namespace Sys2Proof.Machine

open Sys2Proof

/-- A due segment keeps within the source, the room, the payload limit and the sequence space, and
is not empty; a FIN goes with the last byte of an ended source. -/
theorem nextSegment_bounds {s : State} {n : Nat} {fin : Bool} (h : s.nextSegment = some (n, fin)) :
    n ≤ s.srcAvail ∧ n + fin.toNat ≤ s.room ∧ n ≤ s.cfg.maxPayload.toNat ∧
      1 ≤ n + fin.toNat ∧ s.sndNext.toNat + n + fin.toNat ≤ maxWord ∧
      (fin = true → s.source.ended = true ∧ n = s.srcAvail) ∧ s.queueFull = false := by
  unfold State.nextSegment at h
  have hn : s.payloadLen ≤ s.srcAvail ∧ s.payloadLen ≤ s.room ∧
      s.payloadLen ≤ s.cfg.maxPayload.toNat := by unfold State.payloadLen; omega
  simp only [] at h
  split at h
  · cases h
  split at h
  · cases h
  split at h
  · cases h
  split at h
  · cases h
  split at h
  · cases h
  next hq h0 hm =>
  simp only [Option.some.injEq, Prod.mk.injEq] at h
  obtain ⟨rfl, rfl⟩ := h
  have hf : s.finFits s.payloadLen = true →
      s.source.ended = true ∧ s.payloadLen = s.srcAvail ∧ s.payloadLen + 1 ≤ s.room := by
    unfold State.finFits State.srcEnded
    simp only [Bool.and_eq_true, decide_eq_true_eq]
    exact fun h => ⟨h.1.1, by omega, h.2⟩
  refine ⟨hn.1, ?_, hn.2.2, by omega, by omega, fun h => ⟨(hf h).1, (hf h).2.1⟩, by simpa using hq⟩
  cases hfin : s.finFits s.payloadLen with
  | false => simpa using hn.2.1
  | true => simpa using (hf hfin).2.2

/-- A sent segment of `n` bytes the source holds is `n` bytes long. -/
theorem srcFront_length {s : State} {n : Nat} (h : n ≤ s.srcAvail) :
    (s.srcFront n).length = n := by
  simpa [State.srcFront, State.srcAvail] using h

/-- What a sent segment may write. -/
theorem sendSegment_frame (s : State) (n : Nat) (fin : Bool) :
    ∃ st nx b q r e bs out, s.sendSegment n fin =
      { s with
        sndState := st
        sndNext := nx
        sndBif := b
        queue := q
        tmrRunning := r
        tmrElapsed := e
        source := { s.source with bytes := bs }
        segOut := out } := by
  unfold State.sendSegment
  rw [emitNew_eq]
  cases fin <;> exact ⟨_, _, _, _, _, _, _, _, rfl⟩

theorem sendSegment_sndState (s : State) (n : Nat) :
    (s.sendSegment n false).sndState = s.sndState := by
  simp [State.sendSegment, emitNew_eq, State.srcConsume]

/-- Induction over the loop: what every sent segment keeps, the loop keeps. -/
theorem fillLoop_induct {P : State → Prop}
    (turn : ∀ s n fin, P s → s.sndState = .synAcked → s.nextSegment = some (n, fin) →
      P (s.sendSegment n fin)) :
    ∀ (k : Nat) (s : State), s.sndState = .synAcked → P s → P (fillLoop k s) := by
  intro k
  induction k with
  | zero => intro s _ h; exact h
  | succ k ih =>
    intro s hs h
    simp only [fillLoop]
    split
    · exact h
    · next n fin hd =>
      have ht := turn s n fin h hs hd
      cases fin with
      | true => exact ht
      | false => exact ih _ (by rw [sendSegment_sndState, hs]) ht

theorem fillLoop_frame (k : Nat) (s : State) :
    ∃ st nx b q r e bs out, fillLoop k s =
      { s with
        sndState := st
        sndNext := nx
        sndBif := b
        queue := q
        tmrRunning := r
        tmrElapsed := e
        source := { s.source with bytes := bs }
        segOut := out } := by
  induction k generalizing s with
  | zero => exact ⟨_, _, _, _, _, _, _, _, rfl⟩
  | succ k ih =>
    simp only [fillLoop]
    split
    · exact ⟨_, _, _, _, _, _, _, _, rfl⟩
    · next n fin _ =>
      obtain ⟨st, nx, b, q, r, e, bs, out, h⟩ := sendSegment_frame s n fin
      split
      · exact ⟨_, _, _, _, _, _, _, _, h⟩
      · obtain ⟨_, _, _, _, _, _, _, _, h'⟩ := ih (s.sendSegment n fin)
        exact ⟨_, _, _, _, _, _, _, _, by rw [h', h]⟩

/-- What `fill()` may write. -/
theorem fill_frame (s : State) :
    ∃ st nx b q r e bs out, s.fill =
      { s with
        sndState := st
        sndNext := nx
        sndBif := b
        queue := q
        tmrRunning := r
        tmrElapsed := e
        source := { s.source with bytes := bs }
        segOut := out } := by
  unfold State.fill
  split
  · rw [emitNew_eq]; exact ⟨_, _, _, _, _, _, _, _, rfl⟩
  · exact ⟨_, _, _, _, _, _, _, _, rfl⟩
  · exact ⟨_, _, _, _, _, _, _, _, rfl⟩
  · exact fillLoop_frame _ _

/-! ### More turns than the source has bytes make no difference -/

theorem sendSegment_srcAvail (s : State) (n : Nat) (fin : Bool) :
    (s.sendSegment n fin).srcAvail = s.srcAvail - n := by
  unfold State.sendSegment
  rw [emitNew_eq]
  cases fin <;> simp [State.srcConsume, State.srcAvail]

/-- The bound of `State.fill` on the loop is no restriction: any larger one gives the same state. -/
theorem fillLoop_enough : ∀ (k : Nat) (s : State), s.srcAvail < k →
    fillLoop k s = fillLoop (s.srcAvail + 1) s := by
  intro k
  induction k using Nat.strong_induction_on with
  | _ k ih =>
    intro s hk
    cases k with
    | zero => omega
    | succ k =>
      simp only [fillLoop]
      cases hn : s.nextSegment with
      | none => rfl
      | some p =>
        obtain ⟨n, fin⟩ := p
        cases fin with
        | true => rfl
        | false =>
          have hb := nextSegment_bounds hn
          have hav := sendSegment_srcAvail s n false
          simp at hb ⊢
          rw [ih k (by omega) _ (by omega)]
          by_cases h1 : k = s.srcAvail
          · rw [← h1, ih k (by omega) _ (by omega)]
          · rw [ih (s.srcAvail) (by omega) (s.sendSegment n false) (by omega)]

/-! ### The queue of an ack -/

/-- The popped entries are the first of the queue, the others stay (42_sender.md R129). -/
theorem acked_append_unacked (a : Nat) (q : List Entry) :
    ackedEntries a q ++ unackedEntries a q = q := List.takeWhile_append_dropWhile

end Sys2Proof.Machine
end

