-- ==== Sys2Proof/Laws/Queue.lean ====
section
/-! SUPPORT. The outstanding queue as the invariants of 10_state.md R39 see it: how its starts and its
total length follow an appended segment and a popped prefix. -/

namespace Sys2Proof.Machine

open Sys2Proof

/-- In a contiguous queue the lengths add up to what lies between its start and its end
(10_state.md R39 d). -/
theorem queueStart_add_totalLen : ∀ (q : List Entry) (n : Nat), contiguous q n →
    queueStart q n + totalLen q = n
  | [], n, _ => by simp [queueStart, totalLen]
  | e :: q, n, h => by
    have ih := queueStart_add_totalLen q n h.2
    have := h.1
    simp only [Entry.endSeq] at this
    simp only [totalLen, List.map_cons, List.sum_cons] at ih ⊢
    simp only [queueStart]
    omega

/-- An entry that starts where the queue ends keeps it contiguous. -/
theorem contiguous_append : ∀ (q : List Entry) (n : Nat) (e : Entry), contiguous q n →
    e.start.toNat = n → contiguous (q ++ [e]) (n + e.len)
  | [], n, e, _, he => by simp [contiguous, queueStart, Entry.endSeq, he]
  | a :: q, n, e, h, he => by
    refine ⟨?_, contiguous_append q n e h.2 he⟩
    rw [h.1]
    cases q <;> simp [queueStart, he]

/-- Popping keeps the queue contiguous. -/
theorem contiguous_unacked (a : Nat) : ∀ (q : List Entry) (n : Nat), contiguous q n →
    contiguous (unackedEntries a q) n
  | [], _, h => h
  | e :: q, n, h => by
    unfold unackedEntries
    rw [List.dropWhile_cons]
    split
    · exact contiguous_unacked a q n h.2
    · exact h

theorem totalLen_append (q : List Entry) (e : Entry) :
    totalLen (q ++ [e]) = totalLen q + e.len := by
  simp [totalLen]

/-- No entry of a contiguous queue starts before its first. -/
theorem queueStart_le_start {q : List Entry} {n : Nat} (h : contiguous q n) :
    ∀ e ∈ q, queueStart q n ≤ e.start.toNat := by
  induction q with
  | nil => simp
  | cons a q ih =>
    intro e he
    rcases List.mem_cons.1 he with rfl | he
    · exact Nat.le_refl _
    · have h1 := ih h.2 e he
      have h2 := h.1
      simp only [Entry.endSeq] at h2
      simp only [queueStart] at *
      omega

/-- Bytes in flight fall by the lengths of the popped entries (42_sender.md R129). -/
theorem foldl_sub_len : ∀ (q : List Entry) (b : Word), totalLen q ≤ b.toNat →
    (q.foldl (fun b e => BitVec.ofNat 64 (b.toNat - e.len)) b).toNat = b.toNat - totalLen q
  | [], b, _ => by simp [totalLen]
  | e :: q, b, h => by
    simp only [totalLen, List.map_cons, List.sum_cons] at h ⊢
    have hb := b.isLt
    have e1 : (BitVec.ofNat 64 (b.toNat - e.len)).toNat = b.toNat - e.len := by
      rw [BitVec.toNat_ofNat]; exact Nat.mod_eq_of_lt (by omega)
    rw [List.foldl_cons, foldl_sub_len q _ (by rw [e1]; simp only [totalLen]; omega), e1]
    simp only [totalLen]; omega

end Sys2Proof.Machine
end

