-- ==== Sys2Proof/Laws/Reassembler.lean ====
section
/-! SUPPORT. What the steps of RA_INSERT can do, said once each: the store step, the mark, the drain
and the end check (41_reassembler.md R99 to R102). -/

namespace Sys2Proof.Machine

open Sys2Proof

/-! ### Step 2, store -/

/-- A stored byte changes the window and its count, nothing else. -/
theorem storeByte_frame (s : State) (k : Nat) (b : Byte) :
    ∃ w u, s.storeByte k b = { s with window := w, raUnasm := u } := by
  unfold State.storeByte; split <;> exact ⟨_, _, rfl⟩

theorem storeByte_slot (s : State) (k : Nat) (b : Byte) (j : Nat) :
    (s.storeByte k b).window.slot j =
      (s.window.slot j).or (if j = k then some b else none) := by
  unfold State.storeByte
  split
  · next h =>
    obtain ⟨c, hc⟩ := Memory.present_iff.1 h
    by_cases hj : j = k
    · subst hj; simp [hc]
    · simp [hj]
  · next h =>
    have hn : s.window.slot k = none := by
      cases hs : s.window.slot k with
      | none => rfl
      | some c => exact absurd (Memory.present_iff.2 ⟨c, hs⟩) h
    by_cases hj : j = k
    · subst hj; simp [hn]
    · simp [hj]

theorem storeByte_wf {s : State} (hw : s.window.wf) (k : Nat) (b : Byte) :
    (s.storeByte k b).window.wf := by
  unfold State.storeByte; split
  · exact hw
  · exact Memory.wf_store hw k b

theorem storeByte_mem {s : State} {k : Nat} {b : Byte} {c : Host.Cell}
    (h : c ∈ (s.storeByte k b).window) : c = (k, b) ∨ c ∈ s.window := by
  unfold State.storeByte at h; split at h
  · exact .inr h
  · exact Memory.mem_store h

/-- The count follows the window as long as it fits a word. -/
theorem storeByte_unasm {s : State} (hu : s.raUnasm.toNat = s.window.length) {k : Nat} {b : Byte}
    (hl : (s.storeByte k b).window.length < 2 ^ 64) :
    (s.storeByte k b).raUnasm.toNat = (s.storeByte k b).window.length := by
  unfold State.storeByte at hl ⊢
  split
  · exact hu
  · next h =>
    rw [if_neg h] at hl
    have hn : s.window.slot k = none := by
      cases hs : s.window.slot k with
      | none => rfl
      | some c => exact absurd (Memory.present_iff.2 ⟨c, hs⟩) h
    have he := Memory.length_store (b := b) hn
    simp only [] at hl ⊢
    rw [he] at hl ⊢
    rw [BitVec.toNat_ofNat, hu, Nat.mod_eq_of_lt hl]

theorem storeRun_frame (s : State) (k : Nat) (bs : List Byte) :
    ∃ w u, s.storeRun k bs = { s with window := w, raUnasm := u } := by
  induction bs generalizing s k with
  | nil => exact ⟨_, _, rfl⟩
  | cons b bs ih =>
    obtain ⟨w, u, h⟩ := ih (s.storeByte k b) (k + 1)
    obtain ⟨w', u', h'⟩ := storeByte_frame s k b
    exact ⟨w, u, by rw [State.storeRun, h, h']⟩

/-- The store step: a present slot keeps its byte, an absent one takes the substring's
(41_reassembler.md R99). -/
theorem storeRun_slot (s : State) (k : Nat) (bs : List Byte) (j : Nat) :
    (s.storeRun k bs).window.slot j =
      (s.window.slot j).or (if k ≤ j then bs[j - k]? else none) := by
  induction bs generalizing s k with
  | nil => simp [State.storeRun]
  | cons b bs ih =>
    show ((s.storeByte k b).storeRun (k + 1) bs).window.slot j = _
    rw [ih, storeByte_slot, Option.or_assoc]
    congr 1
    by_cases hj : j = k
    · subst hj; simp
    · by_cases hk : k ≤ j
      · have h1 : k + 1 ≤ j := by omega
        have h2 : j - k = (j - (k + 1)) + 1 := by omega
        simp [hj, hk, h1, h2]
      · have h1 : ¬ k + 1 ≤ j := by omega
        simp [hj, hk, h1]

theorem storeRun_wf {s : State} (hw : s.window.wf) (k : Nat) (bs : List Byte) :
    (s.storeRun k bs).window.wf := by
  induction bs generalizing s k with
  | nil => exact hw
  | cons b bs ih => exact ih (storeByte_wf hw k b) (k + 1)

theorem storeRun_mem {s : State} {k : Nat} {bs : List Byte} {c : Host.Cell}
    (h : c ∈ (s.storeRun k bs).window) : c ∈ s.window ∨ k ≤ c.1 ∧ c.1 < k + bs.length := by
  induction bs generalizing s k with
  | nil => exact .inl h
  | cons b bs ih =>
    simp only [List.length_cons]
    rcases ih h with h | h
    · rcases storeByte_mem h with rfl | h
      · exact .inr ⟨Nat.le_refl _, by show k < _; omega⟩
      · exact .inl h
    · exact .inr ⟨by omega, by omega⟩

theorem storeByte_length_le (s : State) (k : Nat) (b : Byte) :
    s.window.length ≤ (s.storeByte k b).window.length := by
  unfold State.storeByte; split
  · exact Nat.le_refl _
  · next h =>
    have hn : s.window.slot k = none := by
      cases hs : s.window.slot k with
      | none => rfl
      | some c => exact absurd (Memory.present_iff.2 ⟨c, hs⟩) h
    have := Memory.length_store (b := b) hn
    simp only []
    omega

theorem storeRun_length_le (s : State) (k : Nat) (bs : List Byte) :
    s.window.length ≤ (s.storeRun k bs).window.length := by
  induction bs generalizing s k with
  | nil => exact Nat.le_refl _
  | cons b bs ih => exact Nat.le_trans (storeByte_length_le s k b) (ih _ _)

theorem storeRun_unasm {s : State} (hu : s.raUnasm.toNat = s.window.length) {k : Nat}
    {bs : List Byte} (hl : (s.storeRun k bs).window.length < 2 ^ 64) :
    (s.storeRun k bs).raUnasm.toNat = (s.storeRun k bs).window.length := by
  induction bs generalizing s k with
  | nil => exact hu
  | cons b bs ih =>
    exact ih (storeByte_unasm hu (Nat.lt_of_le_of_lt (storeRun_length_le _ _ _) hl)) hl

/-- The bytes step 1 keeps, by position (41_reassembler.md R98). -/
theorem clip_get (start base limit : Nat) (data : List Byte) (j : Nat) :
    (clip start base limit data)[j]? =
      if max start base + j < limit then data[max start base + j - start]? else none := by
  simp only [clip, List.getElem?_take, List.getElem?_drop]
  have h1 : max start base - start + j = max start base + j - start := by omega
  rw [h1]
  by_cases hd : max start base + j - start < data.length
  · have : (j < min (start + data.length) limit - max start base) ↔
        max start base + j < limit := by omega
    simp only [this]
  · have hn : data[max start base + j - start]? = none := List.getElem?_eq_none (by omega)
    simp [hn]

theorem clip_length_le (start base limit : Nat) (data : List Byte) :
    max start base + (clip start base limit data).length
      ≤ max (max start base) (min (start + data.length) limit) := by
  simp only [clip, List.length_take, List.length_drop]; omega

/-- Step 2 as a whole: what slot `k` holds after it (41_reassembler.md R98, R99). -/
theorem afterStore_slot (s : State) (start : Nat) (data : List Byte) (k : Nat) :
    (s.afterStore start data).window.slot k =
      (s.window.slot k).or
        (if start ≤ s.raBase.toNat + k ∧ s.raBase.toNat + k < s.acceptLimit
          then data[s.raBase.toNat + k - start]? else none) := by
  simp only [State.afterStore, storeRun_slot, clip_get]
  congr 1
  by_cases hk : max start s.raBase.toNat - s.raBase.toNat ≤ k
  · have h1 : max start s.raBase.toNat + (k - (max start s.raBase.toNat - s.raBase.toNat)) =
        s.raBase.toNat + k := by omega
    have h2 : start ≤ s.raBase.toNat + k := by omega
    simp [hk, h1, h2]
  · have h2 : ¬ start ≤ s.raBase.toNat + k := by omega
    simp [hk, h2]

theorem afterStore_frame (s : State) (start : Nat) (data : List Byte) :
    ∃ w u, s.afterStore start data = { s with window := w, raUnasm := u } :=
  storeRun_frame _ _ _

/-- A cell after step 2 was there, or stands for an acceptable index of the substring. -/
theorem afterStore_mem {s : State} {start : Nat} {data : List Byte} {c : Host.Cell}
    (h : c ∈ (s.afterStore start data).window) :
    c ∈ s.window ∨ (s.raBase.toNat + c.1 < start + data.length ∧
      s.raBase.toNat + c.1 < s.acceptLimit) := by
  rcases storeRun_mem h with h | ⟨h1, h2⟩
  · exact .inl h
  · have := clip_length_le start s.raBase.toNat s.acceptLimit data
    exact .inr (by omega)

/-! ### Step 3, mark -/

theorem markEnd_frame (s : State) (last trunc : Bool) (e : Nat) :
    s.markEnd last trunc e =
      { s with
        raEofValid := if last then !trunc else s.raEofValid
        raEofIndex := if last && !trunc then BitVec.ofNat 64 e else s.raEofIndex } := by
  cases last <;> cases trunc <;> rfl

/-! ### Step 4, drain -/

theorem drainLoop_frame (n : Nat) (s : State) :
    ∃ b w u ev, drainLoop n s =
      { s with raBase := b, window := w, raUnasm := u, sink := { s.sink with events := ev } } := by
  induction n generalizing s with
  | zero => exact ⟨_, _, _, _, rfl⟩
  | succ n ih =>
    simp only [drainLoop]
    split
    · exact ⟨_, _, _, _, rfl⟩
    · next b _ =>
      obtain ⟨b', w, u, ev, h⟩ := ih (s.drainOne b)
      exact ⟨b', w, u, ev, by rw [h]; rfl⟩

theorem drain_frame (s : State) :
    ∃ b w u ev, s.drain =
      { s with raBase := b, window := w, raUnasm := u, sink := { s.sink with events := ev } } :=
  drainLoop_frame _ _

/-- The drain of a good window: `d` slots go to the sink, those before the first absent one
(41_reassembler.md R101). -/
theorem drainLoop_spec : ∀ (n : Nat) (s : State), s.window.wf → s.window.length ≤ n →
    s.raUnasm.toNat = s.window.length →
    (∀ c ∈ s.window, s.raBase.toNat + c.1 < maxWord) →
    ∃ d, (∀ j, j < d → s.window.slot j ≠ none) ∧ s.window.slot d = none ∧
      (drainLoop n s).raBase.toNat = s.raBase.toNat + d ∧
      (drainLoop n s).window.wf ∧
      (∀ k, (drainLoop n s).window.slot k = s.window.slot (k + d)) ∧
      (drainLoop n s).raUnasm.toNat = (drainLoop n s).window.length ∧
      (drainLoop n s).sink.events =
        s.sink.events ++ ((List.range d).filterMap s.window.slot).map .byte := by
  intro n
  induction n with
  | zero =>
    intro s hw hl hu hb
    have he : s.window = [] := List.length_eq_zero_iff.1 (by omega)
    exact ⟨0, by simp, by simp [he], by simp [drainLoop], hw, by simp [drainLoop],
      hu, by simp [drainLoop]⟩
  | succ n ih =>
    intro s hw hl hu hb
    cases h0 : s.window.slot 0 with
    | none =>
      have hd : drainLoop (n + 1) s = s := by simp [drainLoop, h0]
      exact ⟨0, by simp, h0, by simp [hd], by rw [hd]; exact hw, by simp [hd],
        by rw [hd]; exact hu, by simp [hd]⟩
    | some b =>
      have hd : drainLoop (n + 1) s = drainLoop n (s.drainOne b) := by simp [drainLoop, h0]
      have hm := Memory.mem_of_slot h0
      have hbase : s.raBase.toNat < maxWord := by simpa using hb _ hm
      have hlen := Memory.length_shift hw h0
      have hb1 : (s.drainOne b).raBase.toNat = s.raBase.toNat + 1 := by
        simp only [State.drainOne, BitVec.toNat_ofNat]
        exact Nat.mod_eq_of_lt (by simp only [maxWord] at hbase; omega)
      have hu1 : (s.drainOne b).raUnasm.toNat = (s.drainOne b).window.length := by
        simp only [State.drainOne, BitVec.toNat_ofNat]
        rw [Nat.mod_eq_of_lt (by have := s.raUnasm.isLt; omega)]
        omega
      obtain ⟨d, h1, h2, h3, h4, h5, h6, h7⟩ := ih (s.drainOne b) (Memory.wf_shift hw)
        (by show (Memory.shift s.window).length ≤ n; omega) hu1
        (by
          intro c hc
          have := hb _ (Memory.mem_shift.1 hc)
          rw [hb1]; simpa [Nat.add_assoc, Nat.add_comm] using this)
      have hsl : ∀ k, (s.drainOne b).window.slot k = s.window.slot (k + 1) :=
        fun k => Memory.slot_shift s.window k
      refine ⟨d + 1, ?_, ?_, ?_, ?_, ?_, ?_, ?_⟩
      · intro j hj
        cases j with
        | zero => simp [h0]
        | succ j => rw [← hsl]; exact h1 j (by omega)
      · rw [← hsl]; exact h2
      · rw [hd, h3, hb1]; omega
      · rw [hd]; exact h4
      · intro k; rw [hd, h5, hsl]; rfl
      · rw [hd]; exact h6
      · rw [hd, h7, List.range_succ_eq_map]
        have : (s.drainOne b).sink.events = s.sink.events ++ [.byte b] := rfl
        simp [this, h0, List.filterMap_map, hsl]

theorem drain_spec (s : State) (hw : s.window.wf) (hu : s.raUnasm.toNat = s.window.length)
    (hb : ∀ c ∈ s.window, s.raBase.toNat + c.1 < maxWord) :
    ∃ d, (∀ j, j < d → s.window.slot j ≠ none) ∧ s.window.slot d = none ∧
      s.drain.raBase.toNat = s.raBase.toNat + d ∧ s.drain.window.wf ∧
      (∀ k, s.drain.window.slot k = s.window.slot (k + d)) ∧
      s.drain.raUnasm.toNat = s.drain.window.length ∧
      s.drain.sink.events =
        s.sink.events ++ ((List.range d).filterMap s.window.slot).map .byte :=
  drainLoop_spec _ s hw (Nat.le_refl _) hu hb

/-- With slot 0 absent nothing drains. -/
theorem drain_of_slot_zero {s : State} (h : s.window.slot 0 = none) : s.drain = s := by
  unfold State.drain
  cases s.window.length with
  | zero => rfl
  | succ n => simp [drainLoop, h]

/-- The drain keeps the canonical form, whatever the state. -/
theorem drainLoop_wf (n : Nat) {s : State} (hw : s.window.wf) : (drainLoop n s).window.wf := by
  induction n generalizing s with
  | zero => exact hw
  | succ n ih =>
    simp only [drainLoop]
    split
    · exact hw
    · exact ih (Memory.wf_shift hw)

/-! ### Step 5, end check -/

theorem endCheck_eq (s : State) :
    s.endCheck =
      { s with
        raEnded := s.endDue || s.raEnded
        sink := { s.sink with events := s.sink.events ++ (if s.endDue then [.eof] else []) } } := by
  unfold State.endCheck
  split
  · next h => simp [h, State.sinkEnd, Sink.push]
  · next h => simp [h]

/-! ### RA_INSERT -/

/-- The steps of RA_INSERT write the reassembler's state and the sink's trace, nothing else. -/
theorem insert_frame (s : State) (start : Nat) (data : List Byte) (last : Bool) :
    ∃ b w u v x d ev, s.insert start data last =
      { s with
        raBase := b
        window := w
        raUnasm := u
        raEofValid := v
        raEofIndex := x
        raEnded := d
        sink := { s.sink with events := ev } } := by
  obtain ⟨w, u, h⟩ := afterStore_frame s start data
  obtain ⟨b, w', u', ev, h'⟩ := drain_frame
    ((s.afterStore start data).markEnd last (truncated start s.acceptLimit data)
      (start + data.length))
  exact ⟨_, _, _, _, _, _, _, by rw [State.insert, endCheck_eq, h', markEnd_frame, h]⟩

/-- RA_INSERT keeps the canonical form of the window, whatever the state. -/
theorem insert_wf {s : State} (hw : s.window.wf) (start : Nat) (data : List Byte) (last : Bool) :
    (s.insert start data last).window.wf := by
  rw [State.insert, endCheck_eq, markEnd_frame]
  exact drainLoop_wf _ (storeRun_wf hw _ _)

/-- The window of the reset state is in canonical form. -/
theorem reset_window_wf : State.reset.window.wf := Memory.wf_nil

end Sys2Proof.Machine
end

