-- ==== Sys2Proof/Laws/State.lean ====
section
/-! SUPPORT. The fields of the state after each named update: one lemma per field and update, so that
no proof unfolds a record update. -/

namespace Sys2Proof.Machine

open Sys2Proof

/-! ### State.answered -/

@[simp] theorem answered_params (s : State) (status : Status) (res : Word) :
    (s.answered status res).params = s.params := rfl
@[simp] theorem answered_cfg (s : State) (status : Status) (res : Word) :
    (s.answered status res).cfg = s.cfg := rfl
@[simp] theorem answered_raBase (s : State) (status : Status) (res : Word) :
    (s.answered status res).raBase = s.raBase := rfl
@[simp] theorem answered_window (s : State) (status : Status) (res : Word) :
    (s.answered status res).window = s.window := rfl
@[simp] theorem answered_raUnasm (s : State) (status : Status) (res : Word) :
    (s.answered status res).raUnasm = s.raUnasm := rfl
@[simp] theorem answered_raEofValid (s : State) (status : Status) (res : Word) :
    (s.answered status res).raEofValid = s.raEofValid := rfl
@[simp] theorem answered_raEofIndex (s : State) (status : Status) (res : Word) :
    (s.answered status res).raEofIndex = s.raEofIndex := rfl
@[simp] theorem answered_raEnded (s : State) (status : Status) (res : Word) :
    (s.answered status res).raEnded = s.raEnded := rfl
@[simp] theorem answered_sndState (s : State) (status : Status) (res : Word) :
    (s.answered status res).sndState = s.sndState := rfl
@[simp] theorem answered_sndNext (s : State) (status : Status) (res : Word) :
    (s.answered status res).sndNext = s.sndNext := rfl
@[simp] theorem answered_sndBif (s : State) (status : Status) (res : Word) :
    (s.answered status res).sndBif = s.sndBif := rfl
@[simp] theorem answered_sndWindow (s : State) (status : Status) (res : Word) :
    (s.answered status res).sndWindow = s.sndWindow := rfl
@[simp] theorem answered_queue (s : State) (status : Status) (res : Word) :
    (s.answered status res).queue = s.queue := rfl
@[simp] theorem answered_tmrRunning (s : State) (status : Status) (res : Word) :
    (s.answered status res).tmrRunning = s.tmrRunning := rfl
@[simp] theorem answered_tmrElapsed (s : State) (status : Status) (res : Word) :
    (s.answered status res).tmrElapsed = s.tmrElapsed := rfl
@[simp] theorem answered_tmrRto (s : State) (status : Status) (res : Word) :
    (s.answered status res).tmrRto = s.tmrRto := rfl
@[simp] theorem answered_tmrConsec (s : State) (status : Status) (res : Word) :
    (s.answered status res).tmrConsec = s.tmrConsec := rfl
@[simp] theorem answered_source (s : State) (status : Status) (res : Word) :
    (s.answered status res).source = s.source := rfl
@[simp] theorem answered_sink (s : State) (status : Status) (res : Word) :
    (s.answered status res).sink = s.sink := rfl
@[simp] theorem answered_segOut (s : State) (status : Status) (res : Word) :
    (s.answered status res).segOut = s.segOut := rfl
@[simp] theorem answered_port (s : State) (status : Status) (res : Word) :
    (s.answered status res).port = s.port := rfl
@[simp] theorem answered_answer (s : State) (status : Status) (res : Word) :
    (s.answered status res).answer = some ⟨status, res⟩ := rfl
@[simp] theorem answered_host (s : State) (status : Status) (res : Word) :
    (s.answered status res).host = s.host := rfl

/-! ### State.withPort -/

@[simp] theorem withPort_params (s : State) (c : Command) :
    (s.withPort c).params = s.params := rfl
@[simp] theorem withPort_cfg (s : State) (c : Command) :
    (s.withPort c).cfg = s.cfg := rfl
@[simp] theorem withPort_raBase (s : State) (c : Command) :
    (s.withPort c).raBase = s.raBase := rfl
@[simp] theorem withPort_window (s : State) (c : Command) :
    (s.withPort c).window = s.window := rfl
@[simp] theorem withPort_raUnasm (s : State) (c : Command) :
    (s.withPort c).raUnasm = s.raUnasm := rfl
@[simp] theorem withPort_raEofValid (s : State) (c : Command) :
    (s.withPort c).raEofValid = s.raEofValid := rfl
@[simp] theorem withPort_raEofIndex (s : State) (c : Command) :
    (s.withPort c).raEofIndex = s.raEofIndex := rfl
@[simp] theorem withPort_raEnded (s : State) (c : Command) :
    (s.withPort c).raEnded = s.raEnded := rfl
@[simp] theorem withPort_sndState (s : State) (c : Command) :
    (s.withPort c).sndState = s.sndState := rfl
@[simp] theorem withPort_sndNext (s : State) (c : Command) :
    (s.withPort c).sndNext = s.sndNext := rfl
@[simp] theorem withPort_sndBif (s : State) (c : Command) :
    (s.withPort c).sndBif = s.sndBif := rfl
@[simp] theorem withPort_sndWindow (s : State) (c : Command) :
    (s.withPort c).sndWindow = s.sndWindow := rfl
@[simp] theorem withPort_queue (s : State) (c : Command) :
    (s.withPort c).queue = s.queue := rfl
@[simp] theorem withPort_tmrRunning (s : State) (c : Command) :
    (s.withPort c).tmrRunning = s.tmrRunning := rfl
@[simp] theorem withPort_tmrElapsed (s : State) (c : Command) :
    (s.withPort c).tmrElapsed = s.tmrElapsed := rfl
@[simp] theorem withPort_tmrRto (s : State) (c : Command) :
    (s.withPort c).tmrRto = s.tmrRto := rfl
@[simp] theorem withPort_tmrConsec (s : State) (c : Command) :
    (s.withPort c).tmrConsec = s.tmrConsec := rfl
@[simp] theorem withPort_source (s : State) (c : Command) :
    (s.withPort c).source = s.source := rfl
@[simp] theorem withPort_sink (s : State) (c : Command) :
    (s.withPort c).sink = s.sink := rfl
@[simp] theorem withPort_segOut (s : State) (c : Command) :
    (s.withPort c).segOut = s.segOut := rfl
@[simp] theorem withPort_port (s : State) (c : Command) :
    (s.withPort c).port = c := rfl
@[simp] theorem withPort_answer (s : State) (c : Command) :
    (s.withPort c).answer = s.answer := rfl
@[simp] theorem withPort_host (s : State) (c : Command) :
    (s.withPort c).host = s.host := rfl

/-! ### State.sinkWrite -/

@[simp] theorem sinkWrite_params (s : State) (b : Byte) :
    (s.sinkWrite b).params = s.params := rfl
@[simp] theorem sinkWrite_cfg (s : State) (b : Byte) :
    (s.sinkWrite b).cfg = s.cfg := rfl
@[simp] theorem sinkWrite_raBase (s : State) (b : Byte) :
    (s.sinkWrite b).raBase = s.raBase := rfl
@[simp] theorem sinkWrite_window (s : State) (b : Byte) :
    (s.sinkWrite b).window = s.window := rfl
@[simp] theorem sinkWrite_raUnasm (s : State) (b : Byte) :
    (s.sinkWrite b).raUnasm = s.raUnasm := rfl
@[simp] theorem sinkWrite_raEofValid (s : State) (b : Byte) :
    (s.sinkWrite b).raEofValid = s.raEofValid := rfl
@[simp] theorem sinkWrite_raEofIndex (s : State) (b : Byte) :
    (s.sinkWrite b).raEofIndex = s.raEofIndex := rfl
@[simp] theorem sinkWrite_raEnded (s : State) (b : Byte) :
    (s.sinkWrite b).raEnded = s.raEnded := rfl
@[simp] theorem sinkWrite_sndState (s : State) (b : Byte) :
    (s.sinkWrite b).sndState = s.sndState := rfl
@[simp] theorem sinkWrite_sndNext (s : State) (b : Byte) :
    (s.sinkWrite b).sndNext = s.sndNext := rfl
@[simp] theorem sinkWrite_sndBif (s : State) (b : Byte) :
    (s.sinkWrite b).sndBif = s.sndBif := rfl
@[simp] theorem sinkWrite_sndWindow (s : State) (b : Byte) :
    (s.sinkWrite b).sndWindow = s.sndWindow := rfl
@[simp] theorem sinkWrite_queue (s : State) (b : Byte) :
    (s.sinkWrite b).queue = s.queue := rfl
@[simp] theorem sinkWrite_tmrRunning (s : State) (b : Byte) :
    (s.sinkWrite b).tmrRunning = s.tmrRunning := rfl
@[simp] theorem sinkWrite_tmrElapsed (s : State) (b : Byte) :
    (s.sinkWrite b).tmrElapsed = s.tmrElapsed := rfl
@[simp] theorem sinkWrite_tmrRto (s : State) (b : Byte) :
    (s.sinkWrite b).tmrRto = s.tmrRto := rfl
@[simp] theorem sinkWrite_tmrConsec (s : State) (b : Byte) :
    (s.sinkWrite b).tmrConsec = s.tmrConsec := rfl
@[simp] theorem sinkWrite_source (s : State) (b : Byte) :
    (s.sinkWrite b).source = s.source := rfl
@[simp] theorem sinkWrite_sink (s : State) (b : Byte) :
    (s.sinkWrite b).sink = s.sink.push (.byte b) := rfl
@[simp] theorem sinkWrite_segOut (s : State) (b : Byte) :
    (s.sinkWrite b).segOut = s.segOut := rfl
@[simp] theorem sinkWrite_port (s : State) (b : Byte) :
    (s.sinkWrite b).port = s.port := rfl
@[simp] theorem sinkWrite_answer (s : State) (b : Byte) :
    (s.sinkWrite b).answer = s.answer := rfl
@[simp] theorem sinkWrite_host (s : State) (b : Byte) :
    (s.sinkWrite b).host = s.host := rfl

/-! ### State.sinkEnd -/

@[simp] theorem sinkEnd_params (s : State) :
    (s.sinkEnd).params = s.params := rfl
@[simp] theorem sinkEnd_cfg (s : State) :
    (s.sinkEnd).cfg = s.cfg := rfl
@[simp] theorem sinkEnd_raBase (s : State) :
    (s.sinkEnd).raBase = s.raBase := rfl
@[simp] theorem sinkEnd_window (s : State) :
    (s.sinkEnd).window = s.window := rfl
@[simp] theorem sinkEnd_raUnasm (s : State) :
    (s.sinkEnd).raUnasm = s.raUnasm := rfl
@[simp] theorem sinkEnd_raEofValid (s : State) :
    (s.sinkEnd).raEofValid = s.raEofValid := rfl
@[simp] theorem sinkEnd_raEofIndex (s : State) :
    (s.sinkEnd).raEofIndex = s.raEofIndex := rfl
@[simp] theorem sinkEnd_raEnded (s : State) :
    (s.sinkEnd).raEnded = s.raEnded := rfl
@[simp] theorem sinkEnd_sndState (s : State) :
    (s.sinkEnd).sndState = s.sndState := rfl
@[simp] theorem sinkEnd_sndNext (s : State) :
    (s.sinkEnd).sndNext = s.sndNext := rfl
@[simp] theorem sinkEnd_sndBif (s : State) :
    (s.sinkEnd).sndBif = s.sndBif := rfl
@[simp] theorem sinkEnd_sndWindow (s : State) :
    (s.sinkEnd).sndWindow = s.sndWindow := rfl
@[simp] theorem sinkEnd_queue (s : State) :
    (s.sinkEnd).queue = s.queue := rfl
@[simp] theorem sinkEnd_tmrRunning (s : State) :
    (s.sinkEnd).tmrRunning = s.tmrRunning := rfl
@[simp] theorem sinkEnd_tmrElapsed (s : State) :
    (s.sinkEnd).tmrElapsed = s.tmrElapsed := rfl
@[simp] theorem sinkEnd_tmrRto (s : State) :
    (s.sinkEnd).tmrRto = s.tmrRto := rfl
@[simp] theorem sinkEnd_tmrConsec (s : State) :
    (s.sinkEnd).tmrConsec = s.tmrConsec := rfl
@[simp] theorem sinkEnd_source (s : State) :
    (s.sinkEnd).source = s.source := rfl
@[simp] theorem sinkEnd_sink (s : State) :
    (s.sinkEnd).sink = s.sink.push .eof := rfl
@[simp] theorem sinkEnd_segOut (s : State) :
    (s.sinkEnd).segOut = s.segOut := rfl
@[simp] theorem sinkEnd_port (s : State) :
    (s.sinkEnd).port = s.port := rfl
@[simp] theorem sinkEnd_answer (s : State) :
    (s.sinkEnd).answer = s.answer := rfl
@[simp] theorem sinkEnd_host (s : State) :
    (s.sinkEnd).host = s.host := rfl

/-! ### State.srcConsume -/

@[simp] theorem srcConsume_params (s : State) (n : Nat) :
    (s.srcConsume n).params = s.params := rfl
@[simp] theorem srcConsume_cfg (s : State) (n : Nat) :
    (s.srcConsume n).cfg = s.cfg := rfl
@[simp] theorem srcConsume_raBase (s : State) (n : Nat) :
    (s.srcConsume n).raBase = s.raBase := rfl
@[simp] theorem srcConsume_window (s : State) (n : Nat) :
    (s.srcConsume n).window = s.window := rfl
@[simp] theorem srcConsume_raUnasm (s : State) (n : Nat) :
    (s.srcConsume n).raUnasm = s.raUnasm := rfl
@[simp] theorem srcConsume_raEofValid (s : State) (n : Nat) :
    (s.srcConsume n).raEofValid = s.raEofValid := rfl
@[simp] theorem srcConsume_raEofIndex (s : State) (n : Nat) :
    (s.srcConsume n).raEofIndex = s.raEofIndex := rfl
@[simp] theorem srcConsume_raEnded (s : State) (n : Nat) :
    (s.srcConsume n).raEnded = s.raEnded := rfl
@[simp] theorem srcConsume_sndState (s : State) (n : Nat) :
    (s.srcConsume n).sndState = s.sndState := rfl
@[simp] theorem srcConsume_sndNext (s : State) (n : Nat) :
    (s.srcConsume n).sndNext = s.sndNext := rfl
@[simp] theorem srcConsume_sndBif (s : State) (n : Nat) :
    (s.srcConsume n).sndBif = s.sndBif := rfl
@[simp] theorem srcConsume_sndWindow (s : State) (n : Nat) :
    (s.srcConsume n).sndWindow = s.sndWindow := rfl
@[simp] theorem srcConsume_queue (s : State) (n : Nat) :
    (s.srcConsume n).queue = s.queue := rfl
@[simp] theorem srcConsume_tmrRunning (s : State) (n : Nat) :
    (s.srcConsume n).tmrRunning = s.tmrRunning := rfl
@[simp] theorem srcConsume_tmrElapsed (s : State) (n : Nat) :
    (s.srcConsume n).tmrElapsed = s.tmrElapsed := rfl
@[simp] theorem srcConsume_tmrRto (s : State) (n : Nat) :
    (s.srcConsume n).tmrRto = s.tmrRto := rfl
@[simp] theorem srcConsume_tmrConsec (s : State) (n : Nat) :
    (s.srcConsume n).tmrConsec = s.tmrConsec := rfl
@[simp] theorem srcConsume_source (s : State) (n : Nat) :
    (s.srcConsume n).source = ⟨s.source.bytes.drop n, s.source.ended⟩ := rfl
@[simp] theorem srcConsume_sink (s : State) (n : Nat) :
    (s.srcConsume n).sink = s.sink := rfl
@[simp] theorem srcConsume_segOut (s : State) (n : Nat) :
    (s.srcConsume n).segOut = s.segOut := rfl
@[simp] theorem srcConsume_port (s : State) (n : Nat) :
    (s.srcConsume n).port = s.port := rfl
@[simp] theorem srcConsume_answer (s : State) (n : Nat) :
    (s.srcConsume n).answer = s.answer := rfl
@[simp] theorem srcConsume_host (s : State) (n : Nat) :
    (s.srcConsume n).host = s.host := rfl

/-! ### State.emit -/

@[simp] theorem emit_params (s : State) (kind : SegKind) (e : Entry) :
    (s.emit kind e).params = s.params := rfl
@[simp] theorem emit_cfg (s : State) (kind : SegKind) (e : Entry) :
    (s.emit kind e).cfg = s.cfg := rfl
@[simp] theorem emit_raBase (s : State) (kind : SegKind) (e : Entry) :
    (s.emit kind e).raBase = s.raBase := rfl
@[simp] theorem emit_window (s : State) (kind : SegKind) (e : Entry) :
    (s.emit kind e).window = s.window := rfl
@[simp] theorem emit_raUnasm (s : State) (kind : SegKind) (e : Entry) :
    (s.emit kind e).raUnasm = s.raUnasm := rfl
@[simp] theorem emit_raEofValid (s : State) (kind : SegKind) (e : Entry) :
    (s.emit kind e).raEofValid = s.raEofValid := rfl
@[simp] theorem emit_raEofIndex (s : State) (kind : SegKind) (e : Entry) :
    (s.emit kind e).raEofIndex = s.raEofIndex := rfl
@[simp] theorem emit_raEnded (s : State) (kind : SegKind) (e : Entry) :
    (s.emit kind e).raEnded = s.raEnded := rfl
@[simp] theorem emit_sndState (s : State) (kind : SegKind) (e : Entry) :
    (s.emit kind e).sndState = s.sndState := rfl
@[simp] theorem emit_sndNext (s : State) (kind : SegKind) (e : Entry) :
    (s.emit kind e).sndNext = s.sndNext := rfl
@[simp] theorem emit_sndBif (s : State) (kind : SegKind) (e : Entry) :
    (s.emit kind e).sndBif = s.sndBif := rfl
@[simp] theorem emit_sndWindow (s : State) (kind : SegKind) (e : Entry) :
    (s.emit kind e).sndWindow = s.sndWindow := rfl
@[simp] theorem emit_queue (s : State) (kind : SegKind) (e : Entry) :
    (s.emit kind e).queue = s.queue := rfl
@[simp] theorem emit_tmrRunning (s : State) (kind : SegKind) (e : Entry) :
    (s.emit kind e).tmrRunning = s.tmrRunning := rfl
@[simp] theorem emit_tmrElapsed (s : State) (kind : SegKind) (e : Entry) :
    (s.emit kind e).tmrElapsed = s.tmrElapsed := rfl
@[simp] theorem emit_tmrRto (s : State) (kind : SegKind) (e : Entry) :
    (s.emit kind e).tmrRto = s.tmrRto := rfl
@[simp] theorem emit_tmrConsec (s : State) (kind : SegKind) (e : Entry) :
    (s.emit kind e).tmrConsec = s.tmrConsec := rfl
@[simp] theorem emit_source (s : State) (kind : SegKind) (e : Entry) :
    (s.emit kind e).source = s.source := rfl
@[simp] theorem emit_sink (s : State) (kind : SegKind) (e : Entry) :
    (s.emit kind e).sink = s.sink := rfl
@[simp] theorem emit_segOut (s : State) (kind : SegKind) (e : Entry) :
    (s.emit kind e).segOut = s.segOut ++ [recordOf kind s.cfg.isn e] := rfl
@[simp] theorem emit_port (s : State) (kind : SegKind) (e : Entry) :
    (s.emit kind e).port = s.port := rfl
@[simp] theorem emit_answer (s : State) (kind : SegKind) (e : Entry) :
    (s.emit kind e).answer = s.answer := rfl
@[simp] theorem emit_host (s : State) (kind : SegKind) (e : Entry) :
    (s.emit kind e).host = s.host := rfl

/-! ### State.timerRestart -/

@[simp] theorem timerRestart_params (s : State) :
    (s.timerRestart).params = s.params := rfl
@[simp] theorem timerRestart_cfg (s : State) :
    (s.timerRestart).cfg = s.cfg := rfl
@[simp] theorem timerRestart_raBase (s : State) :
    (s.timerRestart).raBase = s.raBase := rfl
@[simp] theorem timerRestart_window (s : State) :
    (s.timerRestart).window = s.window := rfl
@[simp] theorem timerRestart_raUnasm (s : State) :
    (s.timerRestart).raUnasm = s.raUnasm := rfl
@[simp] theorem timerRestart_raEofValid (s : State) :
    (s.timerRestart).raEofValid = s.raEofValid := rfl
@[simp] theorem timerRestart_raEofIndex (s : State) :
    (s.timerRestart).raEofIndex = s.raEofIndex := rfl
@[simp] theorem timerRestart_raEnded (s : State) :
    (s.timerRestart).raEnded = s.raEnded := rfl
@[simp] theorem timerRestart_sndState (s : State) :
    (s.timerRestart).sndState = s.sndState := rfl
@[simp] theorem timerRestart_sndNext (s : State) :
    (s.timerRestart).sndNext = s.sndNext := rfl
@[simp] theorem timerRestart_sndBif (s : State) :
    (s.timerRestart).sndBif = s.sndBif := rfl
@[simp] theorem timerRestart_sndWindow (s : State) :
    (s.timerRestart).sndWindow = s.sndWindow := rfl
@[simp] theorem timerRestart_queue (s : State) :
    (s.timerRestart).queue = s.queue := rfl
@[simp] theorem timerRestart_tmrRunning (s : State) :
    (s.timerRestart).tmrRunning = true := rfl
@[simp] theorem timerRestart_tmrElapsed (s : State) :
    (s.timerRestart).tmrElapsed = 0 := rfl
@[simp] theorem timerRestart_tmrRto (s : State) :
    (s.timerRestart).tmrRto = s.tmrRto := rfl
@[simp] theorem timerRestart_tmrConsec (s : State) :
    (s.timerRestart).tmrConsec = s.tmrConsec := rfl
@[simp] theorem timerRestart_source (s : State) :
    (s.timerRestart).source = s.source := rfl
@[simp] theorem timerRestart_sink (s : State) :
    (s.timerRestart).sink = s.sink := rfl
@[simp] theorem timerRestart_segOut (s : State) :
    (s.timerRestart).segOut = s.segOut := rfl
@[simp] theorem timerRestart_port (s : State) :
    (s.timerRestart).port = s.port := rfl
@[simp] theorem timerRestart_answer (s : State) :
    (s.timerRestart).answer = s.answer := rfl
@[simp] theorem timerRestart_host (s : State) :
    (s.timerRestart).host = s.host := rfl

/-! ### State.timerStop -/

@[simp] theorem timerStop_params (s : State) :
    (s.timerStop).params = s.params := rfl
@[simp] theorem timerStop_cfg (s : State) :
    (s.timerStop).cfg = s.cfg := rfl
@[simp] theorem timerStop_raBase (s : State) :
    (s.timerStop).raBase = s.raBase := rfl
@[simp] theorem timerStop_window (s : State) :
    (s.timerStop).window = s.window := rfl
@[simp] theorem timerStop_raUnasm (s : State) :
    (s.timerStop).raUnasm = s.raUnasm := rfl
@[simp] theorem timerStop_raEofValid (s : State) :
    (s.timerStop).raEofValid = s.raEofValid := rfl
@[simp] theorem timerStop_raEofIndex (s : State) :
    (s.timerStop).raEofIndex = s.raEofIndex := rfl
@[simp] theorem timerStop_raEnded (s : State) :
    (s.timerStop).raEnded = s.raEnded := rfl
@[simp] theorem timerStop_sndState (s : State) :
    (s.timerStop).sndState = s.sndState := rfl
@[simp] theorem timerStop_sndNext (s : State) :
    (s.timerStop).sndNext = s.sndNext := rfl
@[simp] theorem timerStop_sndBif (s : State) :
    (s.timerStop).sndBif = s.sndBif := rfl
@[simp] theorem timerStop_sndWindow (s : State) :
    (s.timerStop).sndWindow = s.sndWindow := rfl
@[simp] theorem timerStop_queue (s : State) :
    (s.timerStop).queue = s.queue := rfl
@[simp] theorem timerStop_tmrRunning (s : State) :
    (s.timerStop).tmrRunning = false := rfl
@[simp] theorem timerStop_tmrElapsed (s : State) :
    (s.timerStop).tmrElapsed = 0 := rfl
@[simp] theorem timerStop_tmrRto (s : State) :
    (s.timerStop).tmrRto = s.tmrRto := rfl
@[simp] theorem timerStop_tmrConsec (s : State) :
    (s.timerStop).tmrConsec = s.tmrConsec := rfl
@[simp] theorem timerStop_source (s : State) :
    (s.timerStop).source = s.source := rfl
@[simp] theorem timerStop_sink (s : State) :
    (s.timerStop).sink = s.sink := rfl
@[simp] theorem timerStop_segOut (s : State) :
    (s.timerStop).segOut = s.segOut := rfl
@[simp] theorem timerStop_port (s : State) :
    (s.timerStop).port = s.port := rfl
@[simp] theorem timerStop_answer (s : State) :
    (s.timerStop).answer = s.answer := rfl
@[simp] theorem timerStop_host (s : State) :
    (s.timerStop).host = s.host := rfl

/-! ### State.enqueue -/

@[simp] theorem enqueue_params (s : State) (e : Entry) :
    (s.enqueue e).params = s.params := rfl
@[simp] theorem enqueue_cfg (s : State) (e : Entry) :
    (s.enqueue e).cfg = s.cfg := rfl
@[simp] theorem enqueue_raBase (s : State) (e : Entry) :
    (s.enqueue e).raBase = s.raBase := rfl
@[simp] theorem enqueue_window (s : State) (e : Entry) :
    (s.enqueue e).window = s.window := rfl
@[simp] theorem enqueue_raUnasm (s : State) (e : Entry) :
    (s.enqueue e).raUnasm = s.raUnasm := rfl
@[simp] theorem enqueue_raEofValid (s : State) (e : Entry) :
    (s.enqueue e).raEofValid = s.raEofValid := rfl
@[simp] theorem enqueue_raEofIndex (s : State) (e : Entry) :
    (s.enqueue e).raEofIndex = s.raEofIndex := rfl
@[simp] theorem enqueue_raEnded (s : State) (e : Entry) :
    (s.enqueue e).raEnded = s.raEnded := rfl
@[simp] theorem enqueue_sndState (s : State) (e : Entry) :
    (s.enqueue e).sndState = s.sndState := rfl
@[simp] theorem enqueue_sndNext (s : State) (e : Entry) :
    (s.enqueue e).sndNext = BitVec.ofNat 64 (s.sndNext.toNat + e.len) := rfl
@[simp] theorem enqueue_sndBif (s : State) (e : Entry) :
    (s.enqueue e).sndBif = BitVec.ofNat 64 (s.sndBif.toNat + e.len) := rfl
@[simp] theorem enqueue_sndWindow (s : State) (e : Entry) :
    (s.enqueue e).sndWindow = s.sndWindow := rfl
@[simp] theorem enqueue_queue (s : State) (e : Entry) :
    (s.enqueue e).queue = s.queue ++ [e] := rfl
@[simp] theorem enqueue_tmrRunning (s : State) (e : Entry) :
    (s.enqueue e).tmrRunning = s.tmrRunning := rfl
@[simp] theorem enqueue_tmrElapsed (s : State) (e : Entry) :
    (s.enqueue e).tmrElapsed = s.tmrElapsed := rfl
@[simp] theorem enqueue_tmrRto (s : State) (e : Entry) :
    (s.enqueue e).tmrRto = s.tmrRto := rfl
@[simp] theorem enqueue_tmrConsec (s : State) (e : Entry) :
    (s.enqueue e).tmrConsec = s.tmrConsec := rfl
@[simp] theorem enqueue_source (s : State) (e : Entry) :
    (s.enqueue e).source = s.source := rfl
@[simp] theorem enqueue_sink (s : State) (e : Entry) :
    (s.enqueue e).sink = s.sink := rfl
@[simp] theorem enqueue_segOut (s : State) (e : Entry) :
    (s.enqueue e).segOut = s.segOut := rfl
@[simp] theorem enqueue_port (s : State) (e : Entry) :
    (s.enqueue e).port = s.port := rfl
@[simp] theorem enqueue_answer (s : State) (e : Entry) :
    (s.enqueue e).answer = s.answer := rfl
@[simp] theorem enqueue_host (s : State) (e : Entry) :
    (s.enqueue e).host = s.host := rfl

/-! ### State.drainOne -/

@[simp] theorem drainOne_params (s : State) (b : Byte) :
    (s.drainOne b).params = s.params := rfl
@[simp] theorem drainOne_cfg (s : State) (b : Byte) :
    (s.drainOne b).cfg = s.cfg := rfl
@[simp] theorem drainOne_raBase (s : State) (b : Byte) :
    (s.drainOne b).raBase = BitVec.ofNat 64 (s.raBase.toNat + 1) := rfl
@[simp] theorem drainOne_window (s : State) (b : Byte) :
    (s.drainOne b).window = Memory.shift s.window := rfl
@[simp] theorem drainOne_raUnasm (s : State) (b : Byte) :
    (s.drainOne b).raUnasm = BitVec.ofNat 64 (s.raUnasm.toNat - 1) := rfl
@[simp] theorem drainOne_raEofValid (s : State) (b : Byte) :
    (s.drainOne b).raEofValid = s.raEofValid := rfl
@[simp] theorem drainOne_raEofIndex (s : State) (b : Byte) :
    (s.drainOne b).raEofIndex = s.raEofIndex := rfl
@[simp] theorem drainOne_raEnded (s : State) (b : Byte) :
    (s.drainOne b).raEnded = s.raEnded := rfl
@[simp] theorem drainOne_sndState (s : State) (b : Byte) :
    (s.drainOne b).sndState = s.sndState := rfl
@[simp] theorem drainOne_sndNext (s : State) (b : Byte) :
    (s.drainOne b).sndNext = s.sndNext := rfl
@[simp] theorem drainOne_sndBif (s : State) (b : Byte) :
    (s.drainOne b).sndBif = s.sndBif := rfl
@[simp] theorem drainOne_sndWindow (s : State) (b : Byte) :
    (s.drainOne b).sndWindow = s.sndWindow := rfl
@[simp] theorem drainOne_queue (s : State) (b : Byte) :
    (s.drainOne b).queue = s.queue := rfl
@[simp] theorem drainOne_tmrRunning (s : State) (b : Byte) :
    (s.drainOne b).tmrRunning = s.tmrRunning := rfl
@[simp] theorem drainOne_tmrElapsed (s : State) (b : Byte) :
    (s.drainOne b).tmrElapsed = s.tmrElapsed := rfl
@[simp] theorem drainOne_tmrRto (s : State) (b : Byte) :
    (s.drainOne b).tmrRto = s.tmrRto := rfl
@[simp] theorem drainOne_tmrConsec (s : State) (b : Byte) :
    (s.drainOne b).tmrConsec = s.tmrConsec := rfl
@[simp] theorem drainOne_source (s : State) (b : Byte) :
    (s.drainOne b).source = s.source := rfl
@[simp] theorem drainOne_sink (s : State) (b : Byte) :
    (s.drainOne b).sink = s.sink.push (.byte b) := rfl
@[simp] theorem drainOne_segOut (s : State) (b : Byte) :
    (s.drainOne b).segOut = s.segOut := rfl
@[simp] theorem drainOne_port (s : State) (b : Byte) :
    (s.drainOne b).port = s.port := rfl
@[simp] theorem drainOne_answer (s : State) (b : Byte) :
    (s.drainOne b).answer = s.answer := rfl
@[simp] theorem drainOne_host (s : State) (b : Byte) :
    (s.drainOne b).host = s.host := rfl

/-! ### State.popAcked -/

@[simp] theorem popAcked_params (s : State) (a : Nat) :
    (s.popAcked a).params = s.params := rfl
@[simp] theorem popAcked_cfg (s : State) (a : Nat) :
    (s.popAcked a).cfg = s.cfg := rfl
@[simp] theorem popAcked_raBase (s : State) (a : Nat) :
    (s.popAcked a).raBase = s.raBase := rfl
@[simp] theorem popAcked_window (s : State) (a : Nat) :
    (s.popAcked a).window = s.window := rfl
@[simp] theorem popAcked_raUnasm (s : State) (a : Nat) :
    (s.popAcked a).raUnasm = s.raUnasm := rfl
@[simp] theorem popAcked_raEofValid (s : State) (a : Nat) :
    (s.popAcked a).raEofValid = s.raEofValid := rfl
@[simp] theorem popAcked_raEofIndex (s : State) (a : Nat) :
    (s.popAcked a).raEofIndex = s.raEofIndex := rfl
@[simp] theorem popAcked_raEnded (s : State) (a : Nat) :
    (s.popAcked a).raEnded = s.raEnded := rfl
@[simp] theorem popAcked_sndState (s : State) (a : Nat) :
    (s.popAcked a).sndState = s.sndState := rfl
@[simp] theorem popAcked_sndNext (s : State) (a : Nat) :
    (s.popAcked a).sndNext = s.sndNext := rfl
@[simp] theorem popAcked_sndBif (s : State) (a : Nat) :
    (s.popAcked a).sndBif = (ackedEntries a s.queue).foldl
        (fun b e => BitVec.ofNat 64 (b.toNat - e.len)) s.sndBif := rfl
@[simp] theorem popAcked_sndWindow (s : State) (a : Nat) :
    (s.popAcked a).sndWindow = s.sndWindow := rfl
@[simp] theorem popAcked_queue (s : State) (a : Nat) :
    (s.popAcked a).queue = unackedEntries a s.queue := rfl
@[simp] theorem popAcked_tmrRunning (s : State) (a : Nat) :
    (s.popAcked a).tmrRunning = s.tmrRunning := rfl
@[simp] theorem popAcked_tmrElapsed (s : State) (a : Nat) :
    (s.popAcked a).tmrElapsed = s.tmrElapsed := rfl
@[simp] theorem popAcked_tmrRto (s : State) (a : Nat) :
    (s.popAcked a).tmrRto = s.tmrRto := rfl
@[simp] theorem popAcked_tmrConsec (s : State) (a : Nat) :
    (s.popAcked a).tmrConsec = s.tmrConsec := rfl
@[simp] theorem popAcked_source (s : State) (a : Nat) :
    (s.popAcked a).source = s.source := rfl
@[simp] theorem popAcked_sink (s : State) (a : Nat) :
    (s.popAcked a).sink = s.sink := rfl
@[simp] theorem popAcked_segOut (s : State) (a : Nat) :
    (s.popAcked a).segOut = s.segOut := rfl
@[simp] theorem popAcked_port (s : State) (a : Nat) :
    (s.popAcked a).port = s.port := rfl
@[simp] theorem popAcked_answer (s : State) (a : Nat) :
    (s.popAcked a).answer = s.answer := rfl
@[simp] theorem popAcked_host (s : State) (a : Nat) :
    (s.popAcked a).host = s.host := rfl

/-! ### State.accumulate -/

@[simp] theorem accumulate_params (s : State) (elapsed : Word) :
    (s.accumulate elapsed).params = s.params := rfl
@[simp] theorem accumulate_cfg (s : State) (elapsed : Word) :
    (s.accumulate elapsed).cfg = s.cfg := rfl
@[simp] theorem accumulate_raBase (s : State) (elapsed : Word) :
    (s.accumulate elapsed).raBase = s.raBase := rfl
@[simp] theorem accumulate_window (s : State) (elapsed : Word) :
    (s.accumulate elapsed).window = s.window := rfl
@[simp] theorem accumulate_raUnasm (s : State) (elapsed : Word) :
    (s.accumulate elapsed).raUnasm = s.raUnasm := rfl
@[simp] theorem accumulate_raEofValid (s : State) (elapsed : Word) :
    (s.accumulate elapsed).raEofValid = s.raEofValid := rfl
@[simp] theorem accumulate_raEofIndex (s : State) (elapsed : Word) :
    (s.accumulate elapsed).raEofIndex = s.raEofIndex := rfl
@[simp] theorem accumulate_raEnded (s : State) (elapsed : Word) :
    (s.accumulate elapsed).raEnded = s.raEnded := rfl
@[simp] theorem accumulate_sndState (s : State) (elapsed : Word) :
    (s.accumulate elapsed).sndState = s.sndState := rfl
@[simp] theorem accumulate_sndNext (s : State) (elapsed : Word) :
    (s.accumulate elapsed).sndNext = s.sndNext := rfl
@[simp] theorem accumulate_sndBif (s : State) (elapsed : Word) :
    (s.accumulate elapsed).sndBif = s.sndBif := rfl
@[simp] theorem accumulate_sndWindow (s : State) (elapsed : Word) :
    (s.accumulate elapsed).sndWindow = s.sndWindow := rfl
@[simp] theorem accumulate_queue (s : State) (elapsed : Word) :
    (s.accumulate elapsed).queue = s.queue := rfl
@[simp] theorem accumulate_tmrRunning (s : State) (elapsed : Word) :
    (s.accumulate elapsed).tmrRunning = s.tmrRunning := rfl
@[simp] theorem accumulate_tmrElapsed (s : State) (elapsed : Word) :
    (s.accumulate elapsed).tmrElapsed = sat64 (s.tmrElapsed.toNat + elapsed.toNat) := rfl
@[simp] theorem accumulate_tmrRto (s : State) (elapsed : Word) :
    (s.accumulate elapsed).tmrRto = s.tmrRto := rfl
@[simp] theorem accumulate_tmrConsec (s : State) (elapsed : Word) :
    (s.accumulate elapsed).tmrConsec = s.tmrConsec := rfl
@[simp] theorem accumulate_source (s : State) (elapsed : Word) :
    (s.accumulate elapsed).source = s.source := rfl
@[simp] theorem accumulate_sink (s : State) (elapsed : Word) :
    (s.accumulate elapsed).sink = s.sink := rfl
@[simp] theorem accumulate_segOut (s : State) (elapsed : Word) :
    (s.accumulate elapsed).segOut = s.segOut := rfl
@[simp] theorem accumulate_port (s : State) (elapsed : Word) :
    (s.accumulate elapsed).port = s.port := rfl
@[simp] theorem accumulate_answer (s : State) (elapsed : Word) :
    (s.accumulate elapsed).answer = s.answer := rfl
@[simp] theorem accumulate_host (s : State) (elapsed : Word) :
    (s.accumulate elapsed).host = s.host := rfl

/-! ### State.resetBlock -/

@[simp] theorem resetBlock_params (s : State) (cfg : Config) :
    (s.resetBlock cfg).params = s.params := rfl
@[simp] theorem resetBlock_cfg (s : State) (cfg : Config) :
    (s.resetBlock cfg).cfg = cfg := rfl
@[simp] theorem resetBlock_raBase (s : State) (cfg : Config) :
    (s.resetBlock cfg).raBase = 0 := rfl
@[simp] theorem resetBlock_window (s : State) (cfg : Config) :
    (s.resetBlock cfg).window = [] := rfl
@[simp] theorem resetBlock_raUnasm (s : State) (cfg : Config) :
    (s.resetBlock cfg).raUnasm = 0 := rfl
@[simp] theorem resetBlock_raEofValid (s : State) (cfg : Config) :
    (s.resetBlock cfg).raEofValid = false := rfl
@[simp] theorem resetBlock_raEofIndex (s : State) (cfg : Config) :
    (s.resetBlock cfg).raEofIndex = 0 := rfl
@[simp] theorem resetBlock_raEnded (s : State) (cfg : Config) :
    (s.resetBlock cfg).raEnded = false := rfl
@[simp] theorem resetBlock_sndState (s : State) (cfg : Config) :
    (s.resetBlock cfg).sndState = .closed := rfl
@[simp] theorem resetBlock_sndNext (s : State) (cfg : Config) :
    (s.resetBlock cfg).sndNext = 0 := rfl
@[simp] theorem resetBlock_sndBif (s : State) (cfg : Config) :
    (s.resetBlock cfg).sndBif = 0 := rfl
@[simp] theorem resetBlock_sndWindow (s : State) (cfg : Config) :
    (s.resetBlock cfg).sndWindow = 1 := rfl
@[simp] theorem resetBlock_queue (s : State) (cfg : Config) :
    (s.resetBlock cfg).queue = [] := rfl
@[simp] theorem resetBlock_tmrRunning (s : State) (cfg : Config) :
    (s.resetBlock cfg).tmrRunning = false := rfl
@[simp] theorem resetBlock_tmrElapsed (s : State) (cfg : Config) :
    (s.resetBlock cfg).tmrElapsed = 0 := rfl
@[simp] theorem resetBlock_tmrRto (s : State) (cfg : Config) :
    (s.resetBlock cfg).tmrRto = cfg.initRto := rfl
@[simp] theorem resetBlock_tmrConsec (s : State) (cfg : Config) :
    (s.resetBlock cfg).tmrConsec = 0 := rfl
@[simp] theorem resetBlock_source (s : State) (cfg : Config) :
    (s.resetBlock cfg).source = s.source := rfl
@[simp] theorem resetBlock_sink (s : State) (cfg : Config) :
    (s.resetBlock cfg).sink = s.sink := rfl
@[simp] theorem resetBlock_segOut (s : State) (cfg : Config) :
    (s.resetBlock cfg).segOut = s.segOut := rfl
@[simp] theorem resetBlock_port (s : State) (cfg : Config) :
    (s.resetBlock cfg).port = s.port := rfl
@[simp] theorem resetBlock_answer (s : State) (cfg : Config) :
    (s.resetBlock cfg).answer = none := rfl
@[simp] theorem resetBlock_host (s : State) (cfg : Config) :
    (s.resetBlock cfg).host = s.host := rfl

end Sys2Proof.Machine
end

