-- ==== Sys2Proof/Tests/Slice0.lean ====
section
/-! SUPPORT. The model's own tests. Expected values are those of spec/95_test_vectors.md (each test
names its vector) or are written out from the encoding tables of 30_encoding.md. The second half
shows, for every statement that has hypotheses, a state and operands that meet them together. -/

namespace Sys2Proof.Tests

open Sys2Proof Sys2Proof.Machine

/-! ### Small states and commands -/

/-- A field of the state a step answers; `none` where it answers none. -/
def after {α : Type} (o : Host.Outcome State Fault Refusal) (f : State → α) : Option α :=
  match o with
  | .next s => some (f s)
  | .fault _ => none
  | .refused _ => none

/-- The bytes of an ASCII word. -/
def ascii (cs : List Nat) : List Byte := cs.map (BitVec.ofNat 8)

/-- A command with its operands. -/
def cmd (w : CmdWord) (a b c : Word) (d : List Byte) : Command := ⟨w, a, b, c, d⟩

/-- One step of a state in which the host issues one command. -/
def run (s : State) (c : Command) : Host.Outcome State Fault Refusal :=
  step { s with host := [.command c] }

/-- A state with operands on its ports. -/
def withOperands (s : State) (a b : Word) (d : List Byte) : State :=
  { s with port := ⟨0, a, b, 0, d⟩ }

/-- After vector S1: the SYN is outstanding. -/
def synSent : State :=
  { State.reset with
    sndState := .synSent, sndNext := 1, sndBif := 1, tmrRunning := true
    queue := [⟨0, true, false, []⟩] }

/-- SYN_ACKED with nothing outstanding, a window and a source. -/
def synAcked (window : Word) (src : List Byte) (ended : Bool) : State :=
  { State.reset with
    sndState := .synAcked, sndNext := 1, sndWindow := window, source := ⟨src, ended⟩ }

/-- SYN_ACKED with the bytes 'x' outstanding from sequence number 1 and a window. -/
def oneSent (window : Word) : State :=
  { State.reset with
    sndState := .synAcked, sndNext := 2, sndBif := 1, sndWindow := window, tmrRunning := true
    queue := [⟨1, false, false, ascii [120]⟩] }

/-- After the first insert of vector R3: "XY" is held at stream indices 1 and 2. -/
def held : State :=
  { State.reset with window := [(1, 88), (2, 89)], raUnasm := 2 }

/-- After vector R1: "abc" is delivered and not yet read. -/
def delivered : State :=
  { State.reset with
    raBase := 3
    sink := ⟨[.byte 97, .byte 98, .byte 99], 0, 8⟩ }

/-- After vector R6: the stream has ended. -/
def ended : State :=
  { State.reset with raEofValid := true, raEnded := true, sink := ⟨[.eof], 0, 8⟩ }

/-- "abc" is delivered, unread and ended, and the input source is ended and empty. -/
def usedSink : State :=
  { delivered with
    raEofValid := true
    raEofIndex := 3
    raEnded := true
    sink := { delivered.sink with events := delivered.sink.events ++ [.eof] }
    source := ⟨[], true⟩ }

/-! ### Well-formedness refuses an ill-formed command -/

theorem test_wf_rejects_reserved_register : (Instr.rdreg 0x06).wellFormed = false := by decide
theorem test_wf_rejects_gap_register : (Instr.rdreg 0x27).wellFormed = false := by decide
theorem test_wf_accepts_last_register : (Instr.rdreg 0x2A).wellFormed = true := by decide

/-! ### Decoding, each word written out from 30_encoding.md R73 to R76 -/

theorem test_decode_nop : decode 0b00000000_00000000 = .ok .nop := by rfl
theorem test_decode_sncWrap : decode 0b00000000_00000001 = .ok .sncWrap := by rfl
theorem test_decode_sncUnwrap : decode 0b00000000_00000010 = .ok .sncUnwrap := by rfl
theorem test_decode_raInsert : decode 0b00000000_00010000 = .ok (.raInsert false) := by rfl
theorem test_decode_raInsert_last : decode 0b00000001_00010000 = .ok (.raInsert true) := by rfl
theorem test_decode_sndFill : decode 0b00000000_00100000 = .ok .sndFill := by rfl
theorem test_decode_sndAck : decode 0b00000000_00100001 = .ok .sndAck := by rfl
theorem test_decode_sndTick : decode 0b00000000_00100010 = .ok .sndTick := by rfl
theorem test_decode_sndEmpty : decode 0b00000000_00100011 = .ok .sndEmpty := by rfl
theorem test_decode_rdreg : decode 0b00010010_00110000 = .ok (.rdreg 0x12) := by rfl

/-- Vectors K3 and K4: unassigned opcodes. -/
theorem test_decode_unassigned :
    decode 0x0003 = .error (.reservedOpcode 0x03) ∧
      decode 0x0011 = .error (.reservedOpcode 0x11) := ⟨by rfl, by rfl⟩
/-- Vectors K5 and R15c: must-be-zero bits set. -/
theorem test_decode_reserved_bits :
    decode 0x0120 = .error (.reservedBits 0x01) ∧
      decode 0x0210 = .error (.reservedBits 0x02) := ⟨by rfl, by rfl⟩
/-- Vectors K6 and K7: reserved register numbers. -/
theorem test_decode_reserved_register :
    decode 0x0630 = .error (.reservedRegister 0x06) ∧
      decode 0x2730 = .error (.reservedRegister 0x27) := ⟨by rfl, by rfl⟩

/-! ### One step of each command -/

/-- K1. -/
theorem test_nop :
    after (run synSent (cmd 0x0000 5 6 7 [])) (·.answer) = some (some ⟨.ok, 0⟩) := by decide
/-- K2. -/
theorem test_nop_reserved :
    after (run synSent (cmd 0x0100 0 0 0 [])) (·.answer) = some (some ⟨.illegal, 0⟩) := by decide
/-- E1. -/
theorem test_wrap_drops_high_bits :
    after (run .reset (cmd 0x0001 0x300000011 15 0 [])) (·.answer) = some (some ⟨.ok, 32⟩) := by
  decide
/-- C4. -/
theorem test_wrap_wraps :
    after (run .reset (cmd 0x0001 0xFFFFFFFFFFFFFFFF 5 0 [])) (·.answer) =
      some (some ⟨.ok, 4⟩) := by decide
/-- E2. -/
theorem test_unwrap_below :
    after (run .reset (cmd 0x0002 0xFFFFFFFF 0 0x300000000 [])) (·.answer) =
      some (some ⟨.ok, 0x2FFFFFFFF⟩) := by decide
/-- U5, both tie directions, and U8. -/
theorem test_unwrap_tie_and_top :
    unwrap .lower 0 0 0x80000000 = 0 ∧ unwrap .upper 0 0 0x80000000 = 0x100000000 ∧
      unwrap .upper 0 0 0xFFFFFFFFFFFFFFFF = 0xFFFFFFFF00000000 := by decide
/-- R3: the byte stored first wins. -/
theorem test_insert_first_byte_wins :
    after (run held (cmd 0x0010 0 0 0 (ascii [97, 98, 99])))
      (fun t => (t.sink.bytes, t.raBase, t.raUnasm)) =
      some (ascii [97, 88, 89], 3, 0) := by decide
/-- R4, its first insert: truncated, so the mark stays clear. -/
theorem test_insert_truncates :
    after (run .reset (cmd 0x0110 5 0 0 (ascii [102, 103, 104, 105, 106, 107])))
      (fun t => (t.window.map Prod.fst, t.raUnasm, t.raEofValid)) =
      some ([5, 6, 7], 3, false) := by decide
/-- E4: payload and FIN in one segment. -/
theorem test_fill_payload_and_fin :
    after (run (synAcked 1000 (ascii [104, 105]) true) (cmd 0x0020 0 0 0 []))
      (fun t => (t.segOut, t.sndState)) =
      some ([⟨.new, 1, 1, false, true, ascii [104, 105], 3, false, false⟩], .finSent) := by decide
/-- S17: the loop stops with the queue full. -/
theorem test_fill_queue_depth :
    after (run { synAcked 100 (ascii [97, 98, 99, 100]) false with
        params := { Params.standard with qDepth := some 2 }
        cfg := { Config.standard with maxPayload := 1 } } (cmd 0x0020 0 0 0 []))
      (fun t => (t.sndNext, t.sndBif, t.source.bytes)) =
      some (3, 2, ascii [99, 100]) := by decide
/-- S5: the ack of the SYN leads to data in the same command. -/
theorem test_ack_syn_then_data :
    after (run { synSent with source := ⟨ascii [104, 101, 108, 108, 111], false⟩ }
        (cmd 0x0021 1 6 0 []))
      (fun t => (t.answer, t.sndState, t.sndNext, t.sndBif, t.tmrRunning)) =
      some (some ⟨.ok, 1⟩, .synAcked, 6, 5, true) := by decide
/-- S4: an ack above `snd_next` is rejected. -/
theorem test_ack_premature :
    after (run synSent (cmd 0x0021 2 7 0 [])) (fun t => (t.answer, t.sndWindow, t.queue.length)) =
      some (some ⟨.ok, 0⟩, 1, 1) := by decide
/-- T2, its second tick. -/
theorem test_tick_expires :
    after (run { synSent with tmrElapsed := 999 } (cmd 0x0022 1 0 0 []))
      (fun t => (t.answer, t.tmrRto, t.tmrConsec, t.tmrElapsed, t.segOut)) =
      some (some ⟨.ok, 1⟩, 2000, 1, 0, [⟨.retx, 0, 0, true, false, [], 1, false, false⟩]) := by
  decide
/-- T4: no backoff under a zero window. -/
theorem test_tick_zero_window :
    after (run (oneSent 0) (cmd 0x0022 1000 0 0 []))
      (fun t => (t.answer, t.tmrRto, t.tmrConsec)) = some (some ⟨.ok, 1⟩, 1000, 0) := by decide
/-- S14. -/
theorem test_empty_segment :
    after (run { State.reset with
        cfg := { Config.standard with isn := 100 }, sndNext := 7 } (cmd 0x0023 0 0 0 []))
      (·.segOut) = some [⟨.empty, 107, 7, false, false, [], 0, false, false⟩] := by decide
/-- E9: the wire sequence number after reset is CFG_ISN. -/
theorem test_rdreg_wire :
    after (run { State.reset with cfg := { Config.standard with isn := 0x12345678 } }
        (cmd 0x2230 0 0 0 [])) (·.answer) = some (some ⟨.ok, 0x12345678⟩) := by decide
/-- K10 and R17. -/
theorem test_rdreg_status :
    after (run .reset (cmd 0x1230 0 0 0 [])) (·.answer) = some (some ⟨.ok, 1⟩) := by decide
/-- A WIN_BITS other than 16 can be given, and the command is refused (00_scope.md R6). -/
theorem test_other_window_width_refused :
    run { State.reset with params := { Params.standard with winBits := 17 } }
      (cmd 0x0000 0 0 0 []) = .refused .illegalConfiguration := by rfl
/-- A reset in the middle of a run: the block is reset, the unread bytes and the end latches stay
(70_reset_and_hazards.md R165), and the next insert counts them in its limit (41_reassembler.md R94):
of "abcdef" the 5 bytes that 3 unread ones leave room for. -/
theorem test_reset_keeps_collaborators :
    after (step { usedSink with host := [.reset Config.standard none] })
        (fun t => (t.raBase, t.raEnded, t.sndState, t.sink, t.source)) =
      some (0, false, .closed, usedSink.sink, ⟨[], true⟩) ∧
    after (run { State.reset with sink := usedSink.sink }
        (cmd 0x0010 0 0 0 (ascii [97, 98, 99, 100, 101, 102])))
      (fun t => (t.raBase, t.sink.buffered)) = some (5, 8) := by decide
/-- The opcode table's word runs as the first instruction after reset. -/
theorem test_fetch_word :
    after (step (State.reset.withFetchWord 16 0x0020)) (·.sndState) = some .synSent := by decide

/-! ### Good states for the witnesses -/

theorem raInv_held : RaInv held := by constructor <;> decide

theorem raInv_delivered : RaInv delivered := by constructor <;> decide

theorem raInv_ended : RaInv ended := by constructor <;> decide

theorem sndInv_of_syn : SndInv synSent where
  chain := ⟨by decide, trivial⟩
  lenPos := by decide
  payloadLe := by decide
  inFlight := by decide
  depth := nofun
  windowFits := by decide
  running := rfl
  idle := nofun
  elapsed := .inl rfl
  phase := ⟨rfl, rfl⟩

theorem sndInv_of_acked (w : Word) (hw : w.toNat < 2 ^ 16) (src : List Byte) (e : Bool) :
    SndInv (synAcked w src e) where
  chain := trivial
  lenPos := nofun
  payloadLe := nofun
  inFlight := rfl
  depth := nofun
  windowFits := hw
  running := rfl
  idle := fun _ => ⟨rfl, rfl, rfl⟩
  elapsed := .inl rfl
  phase := ⟨Nat.le_refl 1, nofun⟩

/-- Bytes held in the reassembler and a segment outstanding at the sender. -/
def busy : State := { oneSent 5 with window := [(1, 88), (2, 89)], raUnasm := 2 }

theorem inv_of_busy : Inv busy where
  host := ⟨by decide, by decide⟩
  ra := by constructor <;> decide
  snd :=
    { chain := ⟨by decide, trivial⟩
      lenPos := by decide
      payloadLe := by decide
      inFlight := by decide
      depth := nofun
      windowFits := by decide
      running := rfl
      idle := nofun
      elapsed := .inl rfl
      phase := ⟨by decide, by decide⟩ }

theorem hostInv_reset : HostInv State.reset := ⟨by decide, by decide⟩

/-! ### The hypotheses of the statements can be met -/

theorem test_witness_DecodeInvertsEncode :
    (Instr.rdreg 0x2A).wellFormed = true ∧ decode 0x2A30 = .ok (.rdreg 0x2A) :=
  ⟨by decide, by rfl⟩

theorem test_witness_StepRunsDecodedCommand :
    ({ busy with host := [.command (cmd 0x0110 1 0 0 [7])] } : State).host =
        .command (cmd 0x0110 1 0 0 [7]) :: [] ∧
      HostInv { busy with host := [.command (cmd 0x0110 1 0 0 [7])] } ∧
      decode (cmd 0x0110 1 0 0 [7]).cmd = .ok (.raInsert true) :=
  ⟨rfl, ⟨by decide, by decide⟩, by rfl⟩

theorem test_witness_PresentedWordRuns :
    HostInv State.reset ∧ decodeTableWord 16 0x2A30 = some (.rdreg 0x2A) :=
  ⟨hostInv_reset, by rfl⟩

/-- A reserved word, an operand one above its field, the last operand that fits. -/
theorem test_witness_IllegalExactlyForBadCommands :
    HostInv State.reset ∧ reservedWord 0x0630 ∧
      badOperands Params.standard (cmd 0x0021 0 0x10000 0 []) ∧
      ¬ badOperands Params.standard (cmd 0x0021 0xFFFFFFFF 0xFFFF 0 []) ∧
      ¬ reservedWord 0x0021 := by
  refine ⟨hostInv_reset, ?_, ?_, ?_, ?_⟩
  · unfold reservedWord; decide
  · exact .inr (.inr (.inl ⟨rfl, .inr (by decide)⟩))
  · simp [badOperands, cmd, Params.standard]
  · unfold reservedWord; decide

theorem test_witness_IdleKeepsState : busy.host = [] := rfl

/-- With a command presented with it, a used sink and an ended source. -/
theorem test_witness_ResetLeavesListedState :
    ({ usedSink with host := [.reset Config.standard (some (cmd 0x0020 0 0 0 []))] } :
        State).host = .reset Config.standard (some (cmd 0x0020 0 0 0 [])) :: [] ∧
      configLegal usedSink.params Config.standard = true ∧
      sinkLargeEnough usedSink.sink Config.standard = true :=
  ⟨rfl, by decide, by decide⟩

/-- The capacity exactly that of the sink. -/
theorem test_witness_BootStartsEverything :
    ({ busy with host := [.boot Config.standard 8 [1]] } : State).host =
        .boot Config.standard 8 [1] :: [] ∧
      configLegal busy.params Config.standard = true ∧ Config.standard.capacity.toNat ≤ 8 :=
  ⟨rfl, by decide, by decide⟩

/-- A capacity of 0; a WIN_BITS of 17; a sink one byte short (of a command, a reset, a boot); a write
after the end; a read of one byte too many. -/
theorem test_witness_BrokenHostDutiesRefused :
    configLegal Params.standard { Config.standard with capacity := 0 } = false ∧
      configLegal Params.standard Config.standard = true ∧
      configLegal { Params.standard with winBits := 17 } Config.standard = false ∧
      (⟨[], 0, 7⟩ : Sink).capacity < Config.standard.capacity.toNat ∧
      7 < Config.standard.capacity.toNat ∧
      (synAcked 1 [] true).source.ended = true ∧
      delivered.sink.bytes.length - delivered.sink.readCount < 4 := by decide

/-- An open source, and a read of all that is buffered. -/
theorem test_witness_HostActsOnCollaborators :
    busy.source.ended = false ∧
      3 ≤ delivered.sink.bytes.length - delivered.sink.readCount := by decide

/-- The smallest legal configuration. -/
theorem test_witness_ResetStateIsGood :
    configLegal ⟨16, .upper, some 1, some 1⟩ ⟨1, 0, 1, 0, 0⟩ = true ∧
      (⟨1, 0, 1, 0, 0⟩ : Config).capacity.toNat ≤ 1 := by decide

/-- A state with a reset next, over a sink to which nothing was written. -/
def resetNext : State := { busy with host := [.reset Config.standard none] }

theorem test_witness_EveryStepKeepsInvariant :
    Inv resetNext ∧ SinkInv resetNext ∧
      (∀ (cfg : Config) (p : Option Command) (rest : List HostEvent),
        resetNext.host = .reset cfg p :: rest → resetNext.sink.events = []) ∧
      ∃ t, step resetNext = .next t :=
  ⟨⟨⟨by decide, by decide⟩, by constructor <;> decide, { inv_of_busy.snd with }⟩,
    by constructor <;> decide, fun _ _ _ _ => rfl, _, rfl⟩

/-- The invariant of the block over a sink that was used before the reset: its next insert runs too. -/
theorem test_witness_EveryStepKeepsInvariant_used :
    RaInv { State.reset with sink := usedSink.sink } ∧ RaInv usedSink ∧ SinkInv usedSink :=
  ⟨by constructor <;> decide, by constructor <;> decide, by constructor <;> decide⟩

theorem test_witness_CommandsWriteNoConfiguration : ∃ t, exec .sndFill busy = .next t := ⟨_, rfl⟩

/-- Two nearest candidates: the tie of vector U5. -/
theorem test_witness_UnwrapReturnsNearest :
    nearestCandidate 0 0 0x80000000 0 ∧ nearestCandidate 0 0 0x80000000 0x100000000 ∧
      0 < 0x100000000 := by
  refine ⟨⟨⟨by decide, by decide⟩, ?_⟩, ⟨⟨by decide, by decide⟩, ?_⟩, by decide⟩ <;>
  · rintro y ⟨h1, h2⟩
    simp at h2 ⊢
    omega

/-- The lowest tie. -/
theorem test_witness_UnwrapTieDirection :
    (((0x80000000 : Word).toNat : Int) - ((0 : Wire) - 0).toNat) % 2 ^ 32 = 2 ^ 31 ∧
      2 ^ 31 ≤ (0x80000000 : Word).toNat ∧ (0x80000000 : Word).toNat + 2 ^ 31 < 2 ^ 64 := by
  decide

/-- The largest value that has a period above it, and both ends of the bound's range. -/
theorem test_witness_CodecLaws :
    candidate 0 0 0x100000000 ∧ (0xFFFFFFFEFFFFFFFF : Word).toNat + 2 ^ 32 < 2 ^ 64 ∧
      2 ^ 31 ≤ (0x80000000 : Word).toNat ∧ (0xFFFFFFFF7FFFFFFF : Word).toNat ≤ 2 ^ 64 - 1 - 2 ^ 31 :=
  ⟨⟨by decide, by decide⟩, by decide, by decide, by decide⟩

theorem test_witness_SncWrapResult :
    (withOperands .reset 7 0xFFFFFFFF []).port.opb.toNat < 2 ^ 32 := by decide

theorem test_witness_SncUnwrapResult :
    (withOperands .reset 0xFFFFFFFF 0xFFFFFFFF []).port.opa.toNat < 2 ^ 32 ∧
      (withOperands .reset 0xFFFFFFFF 0xFFFFFFFF []).port.opb.toNat < 2 ^ 32 := by decide

theorem test_witness_TooWideOperandsIllegal :
    2 ^ 32 ≤ (withOperands .reset 0 0x100000000 []).port.opb.toNat ∧
      2 ^ 32 ≤ (withOperands .reset 0x100000000 0 []).port.opa.toNat ∧
      2 ^ (withOperands .reset 0 0x10000 []).params.winBits ≤
        (withOperands .reset 0 0x10000 []).port.opb.toNat := by decide

/-- One byte more than DATA_MAX; an end one above the top (vector R15). -/
theorem test_witness_InsertDataChecks :
    (∃ m, (⟨16, .lower, none, some 1⟩ : Params).dataMax = some m ∧
      m < (withOperands .reset 0 0 [1, 2]).port.data.length) ∧
      2 ^ 64 - 1 < (withOperands .reset 0xFFFFFFFFFFFFFFFF 0 [1]).port.opa.toNat +
        (withOperands .reset 0xFFFFFFFFFFFFFFFF 0 [1]).port.data.length :=
  ⟨⟨1, rfl, by decide⟩, by decide⟩

theorem test_witness_InsertAfterEndDoesNothing :
    insertAdmitted (withOperands ended 0 0 [120]) ∧ (withOperands ended 0 0 [120]).raEnded = true :=
  ⟨⟨nofun, by decide⟩, rfl⟩

/-- The gap is filled with LAST; and, at the boundary, vector R15b's end of 2^64 − 1. -/
theorem test_witness_InsertResult :
    RaInv (withOperands held 0 0 [97, 98, 99]) ∧
      (withOperands held 0 0 [97, 98, 99]).raEnded = false ∧
      insertAdmitted (withOperands held 0 0 [97, 98, 99]) ∧
      insertAdmitted (withOperands held 0xFFFFFFFFFFFFFFFE 0 [97]) :=
  ⟨by constructor <;> decide, rfl, ⟨nofun, by decide⟩, ⟨nofun, by decide⟩⟩

/-- The end index at `ra_base` (the end check fires) and one above it (it does not). -/
theorem test_witness_InsertEmptyLast :
    RaInv (withOperands delivered 3 0 []) ∧ (withOperands delivered 3 0 []).raEnded = false ∧
      insertAdmitted (withOperands delivered 3 0 []) ∧
      (withOperands delivered 3 0 []).port.data = [] ∧
      insertAdmitted (withOperands delivered 4 0 []) :=
  ⟨by constructor <;> decide, rfl, ⟨nofun, by decide⟩, rfl, ⟨nofun, by decide⟩⟩

theorem test_witness_InsertEmptyNotLast :
    RaInv (withOperands held 5 0 []) ∧ insertAdmitted (withOperands held 5 0 []) ∧
      (withOperands held 5 0 []).port.data = [] :=
  ⟨by constructor <;> decide, ⟨nofun, by decide⟩, rfl⟩

/-- Vector R8: the data ends exactly at `ra_base`. -/
theorem test_witness_InsertStaleData :
    RaInv (withOperands delivered 0 0 [97, 98, 99]) ∧
      (withOperands delivered 0 0 [97, 98, 99]).raEnded = false ∧
      insertAdmitted (withOperands delivered 0 0 [97, 98, 99]) ∧
      (withOperands delivered 0 0 [97, 98, 99]).port.opa.toNat +
        (withOperands delivered 0 0 [97, 98, 99]).port.data.length ≤
        (withOperands delivered 0 0 [97, 98, 99]).raBase.toNat :=
  ⟨by constructor <;> decide, rfl, ⟨nofun, by decide⟩, by decide⟩

/-- The data starts exactly at the limit. -/
theorem test_witness_InsertBeyondLimit :
    RaInv (withOperands delivered 8 0 [97]) ∧ (withOperands delivered 8 0 [97]).raEnded = false ∧
      insertAdmitted (withOperands delivered 8 0 [97]) ∧
      (withOperands delivered 8 0 [97]).port.data ≠ [] ∧
      limitOf (withOperands delivered 8 0 [97]) ≤
        (withOperands delivered 8 0 [97]).port.opa.toNat :=
  ⟨by constructor <;> decide, rfl, ⟨nofun, by decide⟩, by decide, by decide⟩

/-- Vector R16. -/
theorem test_witness_InsertIsIdempotent :
    RaInv (withOperands .reset 2 0 [99, 100]) ∧
      ∃ t, exec (.raInsert false) (withOperands .reset 2 0 [99, 100]) = .next t :=
  ⟨by constructor <;> decide, _, rfl⟩

/-- A logical stream: index `i` holds the byte `i`. -/
def countingStream (i : Nat) : Byte := BitVec.ofNat 8 i

theorem test_witness_SinkHoldsStreamPrefix :
    RaInv (withOperands .reset 0 0 [0, 1]) ∧
      agreesWith countingStream (withOperands .reset 0 0 [0, 1]) ∧
      (∀ i b, (withOperands .reset 0 0 [0, 1]).port.data[i]? = some b →
        b = countingStream ((withOperands .reset 0 0 [0, 1]).port.opa.toNat + i)) ∧
      (∃ t, exec (.raInsert false) (withOperands .reset 0 0 [0, 1]) = .next t) ∧
      (withOperands .reset 0 0 [0, 1]).raEnded = false ∧
      insertAdmitted (withOperands .reset 0 0 [0, 1]) := by
  refine ⟨by constructor <;> decide, ⟨rfl, nofun⟩, ?_, ⟨_, rfl⟩, rfl, ⟨nofun, by decide⟩⟩
  intro i b h
  match i, h with
  | 0, h => simp [withOperands] at h; subst h; rfl
  | 1, h => simp [withOperands] at h; subst h; rfl
  | n + 2, h => simp [withOperands] at h

/-- The data ends one above the limit. -/
theorem test_witness_TruncatedLastDoesNotEnd :
    (withOperands .reset 7 0 [1, 2]).raEnded = false ∧
      insertAdmitted (withOperands .reset 7 0 [1, 2]) ∧
      operandsTruncated (withOperands .reset 7 0 [1, 2]) ∧
      (withOperands .reset 7 0 [1, 2]).raEofValid = false :=
  ⟨rfl, ⟨nofun, by decide⟩, ⟨by decide, by decide⟩, rfl⟩

theorem test_witness_BaseCountsDeliveredBytes :
    RaInv (withOperands held 0 0 [97]) ∧
      ∃ t, exec (.raInsert true) (withOperands held 0 0 [97]) = .next t :=
  ⟨by constructor <;> decide, _, rfl⟩

theorem test_witness_EndIsFinal :
    ended.raEnded = true ∧ ∃ t, exec (.raInsert false) ended = .next t := ⟨rfl, _, rfl⟩

theorem test_witness_FillInClosedSendsSyn : SndInv State.reset ∧ State.reset.sndState = .closed :=
  ⟨{ chain := trivial, lenPos := nofun, payloadLe := nofun, inFlight := rfl, depth := nofun,
     windowFits := by decide,
     running := rfl, idle := fun _ => ⟨rfl, rfl, rfl⟩, elapsed := .inl rfl,
     phase := ⟨rfl, rfl⟩ }, rfl⟩

theorem test_witness_FillWhileWaitingDoesNothing :
    synSent.sndState = .synSent ∧ ({ synSent with sndState := .finSent } : State).sndState = .finSent :=
  ⟨rfl, rfl⟩

/-- No segment due; the last segment with its FIN; a segment before it. -/
theorem test_witness_FillRepeatsTurns :
    (synAcked 3 [] false).sndState = .synAcked ∧ (synAcked 3 [] false).nextSegment = none ∧
      (synAcked 3 [1, 2] true).nextSegment = some (2, true) ∧
      (synAcked 2 [1, 2] true).nextSegment = some (2, false) := by decide

theorem test_witness_SentSegment : 2 ≤ (synAcked 3 [1, 2] true).source.bytes.length := by decide

/-- The second clause at its boundary: one in flight, a window of 1 and of 0. -/
theorem test_witness_FillStaysInWindow :
    (oneSent 1).sndState = .synAcked ∧ (∃ t, exec .sndFill (oneSent 1) = .next t) ∧
      (if (oneSent 1).sndWindow = 0 then 1 else (oneSent 1).sndWindow.toNat) ≤
        (oneSent 1).sndBif.toNat ∧
      (if (oneSent 0).sndWindow = 0 then 1 else (oneSent 0).sndWindow.toNat) ≤
        (oneSent 0).sndBif.toNat :=
  ⟨rfl, ⟨_, rfl⟩, by decide, by decide⟩

/-- Vectors S8 and S9. -/
theorem test_witness_ZeroWindowProbe :
    SndInv (synAcked 0 [120, 121] false) ∧
      configLegal (synAcked 0 [120, 121] false).params (synAcked 0 [120, 121] false).cfg = true ∧
      (synAcked 0 [120, 121] false).sndState = .synAcked ∧
      (synAcked 0 [120, 121] false).sndWindow = 0 ∧ (synAcked 0 [120, 121] false).sndBif = 0 ∧
      (synAcked 0 [120, 121] false).sndNext.toNat + 1 ≤ 2 ^ 64 - 1 ∧
      (synAcked 0 [120, 121] false).source.bytes = 120 :: [121] ∧
      SndInv (synAcked 0 [] true) ∧ (synAcked 0 [] true).source = ⟨[], true⟩ :=
  ⟨sndInv_of_acked _ (by decide) _ _, by decide, rfl, rfl, rfl, by decide, rfl, sndInv_of_acked _ (by decide) _ _, rfl⟩

theorem test_witness_FillSendsSourceInOrder :
    ∃ t, exec .sndFill (synAcked 2 [1, 2, 3] true) = .next t := ⟨_, rfl⟩

/-- An ack one above `snd_next`. -/
theorem test_witness_RejectedAckDoesNothing :
    ackAdmitted (withOperands synSent 2 7 []) ∧ ¬ ackCovers (withOperands synSent 2 7 []) :=
  ⟨⟨by decide, by decide⟩, by unfold ackCovers; decide⟩

/-- An ack exactly `snd_next`, with the largest window. -/
theorem test_witness_AcceptedAckResult :
    SndInv (withOperands synSent 1 0xFFFF []) ∧ ackAdmitted (withOperands synSent 1 0xFFFF []) ∧
      ackCovers (withOperands synSent 1 0xFFFF []) := by
  refine ⟨?_, ⟨by decide, by decide⟩, by unfold ackCovers; decide⟩
  obtain ⟨a, b, c, d, e, f, g, h, i, j⟩ := sndInv_of_syn
  exact ⟨a, b, c, d, e, f, g, h, i, j⟩

/-- Vector S3: the ack is the oldest outstanding start. -/
theorem test_witness_DuplicateAckLeavesTimer :
    SndInv (withOperands synSent 0 7 []) ∧ ackAdmitted (withOperands synSent 0 7 []) ∧
      ackCovers (withOperands synSent 0 7 []) ∧
      (withOperands synSent 0 7 []).queue = ⟨0, true, false, []⟩ :: [] ∧
      ackOperand (withOperands synSent 0 7 []) < (⟨0, true, false, []⟩ : Entry).endSeq := by
  refine ⟨?_, ⟨by decide, by decide⟩, by unfold ackCovers; decide, rfl, by decide⟩
  obtain ⟨a, b, c, d, e, f, g, h, i, j⟩ := sndInv_of_syn
  exact ⟨a, b, c, d, e, f, g, h, i, j⟩

theorem test_witness_SenderStateTransitions :
    ∃ t, exec .sndAck (withOperands synSent 1 6 []) = .next t := ⟨_, rfl⟩

theorem test_witness_SndNextNeverDecreases :
    SndInv synSent ∧ ∃ t, exec .sndAck synSent = .next t := ⟨sndInv_of_syn, _, rfl⟩

theorem test_witness_TickWhileStopped : State.reset.tmrRunning = false := rfl

/-- One below the timeout. -/
theorem test_witness_TickBelowTimeout :
    (withOperands synSent 999 0 []).tmrRunning = true ∧
      (withOperands synSent 999 0 []).queue ≠ [] ∧
      min ((withOperands synSent 999 0 []).tmrElapsed.toNat +
        (withOperands synSent 999 0 []).port.opa.toNat) (2 ^ 64 - 1) <
        (withOperands synSent 999 0 []).tmrRto.toNat := by decide

/-- Exactly the timeout; a front that backs off under a nonzero window. -/
theorem test_witness_TickExpiry :
    (withOperands (oneSent 1) 1000 0 []).tmrRunning = true ∧
      (withOperands (oneSent 1) 1000 0 []).queue = ⟨1, false, false, ascii [120]⟩ :: [] ∧
      (withOperands (oneSent 1) 1000 0 []).tmrRto.toNat ≤
        min ((withOperands (oneSent 1) 1000 0 []).tmrElapsed.toNat +
          (withOperands (oneSent 1) 1000 0 []).port.opa.toNat) (2 ^ 64 - 1) := by decide

theorem test_witness_TickWithEmptyQueue :
    ({ State.reset with tmrRunning := true } : State).tmrRunning = true ∧
      ({ State.reset with tmrRunning := true } : State).queue = [] := ⟨rfl, rfl⟩

/-- The largest timeout that doubles three times without saturating. -/
theorem test_witness_BackoffDoublesThreeTimes :
    ({ oneSent 1 with tmrRto := 0x1FFFFFFFFFFFFFFF } : State).tmrRunning = true ∧
      ({ oneSent 1 with tmrRto := 0x1FFFFFFFFFFFFFFF } : State).queue =
        ⟨1, false, false, ascii [120]⟩ :: [] ∧
      (oneSent 1).sndWindow ≠ 0 ∧ (oneSent 1).tmrElapsed = 0 ∧
      8 * (0x1FFFFFFFFFFFFFFF : Word).toNat < 2 ^ 64 ∧
      (oneSent 1).tmrConsec.toNat + 3 < 2 ^ 64 := by decide

/-- The count at the threshold. -/
theorem test_witness_RetxExceededThreshold :
    (withOperands { synSent with tmrConsec := 8, sndWindow := 0 } 1000 0 []).tmrRunning = true ∧
      (withOperands { synSent with tmrConsec := 8, sndWindow := 0 } 1000 0 []).queue =
        ⟨0, true, false, []⟩ :: [] ∧
      (⟨0, true, false, []⟩ : Entry).syn = true ∧ (8 : Word).toNat + 1 < 2 ^ 64 ∧
      (withOperands { synSent with tmrConsec := 8, sndWindow := 0 } 1000 0 []).tmrRto.toNat ≤
        min ((withOperands { synSent with tmrConsec := 8, sndWindow := 0 } 1000 0
            []).tmrElapsed.toNat +
          (withOperands { synSent with tmrConsec := 8, sndWindow := 0 } 1000 0
            []).port.opa.toNat) (2 ^ 64 - 1) := by decide

theorem test_witness_RegisterMap :
    (0x27 : BitVec 8) ∉ definedRegnos ∧ (0xFF : BitVec 8) ∉ definedRegnos ∧
      configLegal Params.standard Config.standard = true := by decide

theorem test_witness_UnitsDoNotInterfere :
    (∃ t, exec .sndAck (withOperands busy 1 6 []) = .next t) ∧
      ∃ t, exec (.raInsert true) (withOperands busy 0 0 [97]) = .next t := ⟨⟨_, rfl⟩, _, rfl⟩

end Sys2Proof.Tests
end

section
/-! The runs that break a host duty (00_scope.md R6, 70_reset_and_hazards.md R168): what each kind
of host event answers when its duty is broken, and from that what `step` answers. -/

namespace Sys2Proof.Machine

open Sys2Proof

/-- A step takes the first event off the host's list and lets it happen. -/
theorem step_of_host {s : State} {e : HostEvent} {rest : List HostEvent} (h : s.host = e :: rest) :
    step s = hostEvent e { s with host := rest } := by
  simp only [step, hostStep, h]

@[simp] theorem sinkLargeEnough_eq_false_iff (k : Sink) (c : Config) :
    sinkLargeEnough k c = false ↔ k.capacity < c.capacity.toNat := by
  simp [sinkLargeEnough]

/-- 16 is the one legal WIN_BITS (00_scope.md R6). -/
theorem configLegal_of_winBits_ne {p : Params} (h : p.winBits ≠ 16) (c : Config) :
    configLegal p c = false := by
  simp [configLegal, h]

theorem runCommand_of_illegalConfig {s : State} (c : Command)
    (h : configLegal s.params s.cfg = false) :
    runCommand c s = .refused .illegalConfiguration := by
  simp [runCommand, h]

theorem runCommand_of_smallSink {s : State} (c : Command)
    (hc : configLegal s.params s.cfg = true) (hk : s.sink.capacity < s.cfg.capacity.toNat) :
    runCommand c s = .refused .sinkTooSmall := by
  simp [runCommand, hc, (sinkLargeEnough_eq_false_iff _ _).2 hk]

theorem takeReset_of_illegalConfig {s : State} {cfg : Config}
    (h : configLegal s.params cfg = false) :
    takeReset cfg s = .refused .illegalConfiguration := by
  simp [takeReset, h]

theorem takeReset_of_smallSink {s : State} {cfg : Config}
    (hc : configLegal s.params cfg = true) (hk : s.sink.capacity < cfg.capacity.toNat) :
    takeReset cfg s = .refused .sinkTooSmall := by
  simp [takeReset, hc, (sinkLargeEnough_eq_false_iff _ _).2 hk]

theorem hostWrite_after_end {s : State} (b : Byte) (bytes : List Byte)
    (h : s.source.ended = true) :
    hostWrite (b :: bytes) s = .refused .sourceWriteAfterEnd := by
  simp [hostWrite, h]

theorem hostRead_beyond {s : State} {n : Nat} (h : s.sink.buffered < n) :
    hostRead n s = .refused .sinkReadBeyond :=
  if_neg (Nat.not_le.2 h)

/-- Settles O10: each clause is the refusal of its kind of event; a boot is refused by the reset it
ends with, over the sink it brings. -/
theorem brokenHostDutiesRefused : Obligations.BrokenHostDutiesRefused := by
  refine ⟨?command_config, ?command_sink, ?reset_config, ?reset_sink, ?boot_config, ?boot_sink,
    ?win_bits, ?write_after_end, ?read_beyond⟩
  case command_config =>
    exact fun _ c _ hh hc => (step_of_host hh).trans (runCommand_of_illegalConfig c hc)
  case command_sink =>
    exact fun _ c _ hh hc hk => (step_of_host hh).trans (runCommand_of_smallSink c hc hk)
  case reset_config =>
    exact fun _ _ _ _ hh hc => (step_of_host hh).trans (takeReset_of_illegalConfig hc)
  case reset_sink =>
    exact fun _ _ _ _ hh hc hk => (step_of_host hh).trans (takeReset_of_smallSink hc hk)
  case boot_config =>
    exact fun _ _ _ _ _ hh hc => (step_of_host hh).trans (takeReset_of_illegalConfig hc)
  case boot_sink =>
    exact fun _ _ _ _ _ hh hc hk => (step_of_host hh).trans (takeReset_of_smallSink hc hk)
  case win_bits => exact fun _ cfg h => configLegal_of_winBits_ne h cfg
  case write_after_end =>
    exact fun _ b bytes _ hh he => (step_of_host hh).trans (hostWrite_after_end b bytes he)
  case read_beyond => exact fun _ _ _ hh hn => (step_of_host hh).trans (hostRead_beyond hn)

end Sys2Proof.Machine
end

section
/-! The sender and the reassembler beside each other (00_scope.md R3). Replacing one unit's state
commutes with every operation of the other unit: the operation reads nothing of what is replaced,
and leaves it as it is. The replacement is taken from another state, so that it is one argument. -/

namespace Sys2Proof.Machine

open Sys2Proof

/-- The state with the reassembler and the output sink of `r`. -/
def State.withReassemblerOf (s r : State) : State :=
  { s with
    raBase := r.raBase
    window := r.window
    raUnasm := r.raUnasm
    raEofValid := r.raEofValid
    raEofIndex := r.raEofIndex
    raEnded := r.raEnded
    sink := r.sink }

/-- The state with the sender, its timer, the input source and the segment output of `r`. -/
def State.withSenderOf (s r : State) : State :=
  { s with
    sndState := r.sndState
    sndNext := r.sndNext
    sndBif := r.sndBif
    sndWindow := r.sndWindow
    queue := r.queue
    tmrRunning := r.tmrRunning
    tmrElapsed := r.tmrElapsed
    tmrRto := r.tmrRto
    tmrConsec := r.tmrConsec
    source := r.source
    segOut := r.segOut }

/-- An outcome with `f` applied to the next state, if there is one. -/
def onNext (f : State → State) (o : Host.Outcome State Fault Refusal) :
    Host.Outcome State Fault Refusal :=
  match o with
  | .next s => .next (f s)
  | .fault r => .fault r
  | .refused r => .refused r

@[simp] theorem onNext_next (f : State → State) (s : State) :
    onNext f (.next s) = .next (f s) := rfl

/-! ### The sender over another reassembler -/

@[simp] theorem withReassemblerOf_params (s r : State) :
    (s.withReassemblerOf r).params = s.params := rfl
@[simp] theorem withReassemblerOf_port (s r : State) :
    (s.withReassemblerOf r).port = s.port := rfl
@[simp] theorem withReassemblerOf_sndState (s r : State) :
    (s.withReassemblerOf r).sndState = s.sndState := rfl
@[simp] theorem withReassemblerOf_queue (s r : State) :
    (s.withReassemblerOf r).queue = s.queue := rfl
@[simp] theorem withReassemblerOf_tmrRunning (s r : State) :
    (s.withReassemblerOf r).tmrRunning = s.tmrRunning := rfl
@[simp] theorem withReassemblerOf_tmrElapsed (s r : State) :
    (s.withReassemblerOf r).tmrElapsed = s.tmrElapsed := rfl
@[simp] theorem withReassemblerOf_tmrRto (s r : State) :
    (s.withReassemblerOf r).tmrRto = s.tmrRto := rfl

theorem respondOk_withReassemblerOf (s r : State) (x : Word) :
    respondOk (s.withReassemblerOf r) x = onNext (·.withReassemblerOf r) (respondOk s x) := rfl

theorem raiseIllegal_withReassemblerOf (s r : State) :
    raiseIllegal (s.withReassemblerOf r) = onNext (·.withReassemblerOf r) (raiseIllegal s) := rfl

theorem emitNew_withReassemblerOf (s r : State) (syn fin : Bool) (payload : List Byte) :
    (s.withReassemblerOf r).emitNew syn fin payload =
      (s.emitNew syn fin payload).withReassemblerOf r := by
  rw [emitNew_eq, emitNew_eq]
  rfl

theorem nextSegment_withReassemblerOf (s r : State) :
    (s.withReassemblerOf r).nextSegment = s.nextSegment := rfl

theorem sendSegment_withReassemblerOf (s r : State) (n : Nat) (fin : Bool) :
    (s.withReassemblerOf r).sendSegment n fin = (s.sendSegment n fin).withReassemblerOf r := by
  have sent : ((s.withReassemblerOf r).srcConsume n).emitNew false fin
      ((s.withReassemblerOf r).srcFront n) =
        ((s.srcConsume n).emitNew false fin (s.srcFront n)).withReassemblerOf r :=
    emitNew_withReassemblerOf (s.srcConsume n) r false fin (s.srcFront n)
  simp only [State.sendSegment, sent]
  cases fin <;> rfl

theorem fillLoop_withReassemblerOf (k : Nat) (s r : State) :
    fillLoop k (s.withReassemblerOf r) = (fillLoop k s).withReassemblerOf r := by
  induction k generalizing s with
  | zero => rfl
  | succ k ih =>
    simp only [fillLoop, nextSegment_withReassemblerOf]
    cases s.nextSegment with
    | none => rfl
    | some p =>
      obtain ⟨n, fin⟩ := p
      cases fin with
      | true => exact sendSegment_withReassemblerOf s r n true
      | false => simp [sendSegment_withReassemblerOf, ih]

theorem fill_withReassemblerOf (s r : State) :
    (s.withReassemblerOf r).fill = s.fill.withReassemblerOf r := by
  simp only [State.fill, withReassemblerOf_sndState]
  cases s.sndState with
  | closed => rw [emitNew_withReassemblerOf]; rfl
  | synSent => rfl
  | finSent => rfl
  | synAcked => exact fillLoop_withReassemblerOf (s.srcAvail + 1) s r

theorem ackRecorded_withReassemblerOf (s r : State) (a : Nat) (window : Word) :
    (s.withReassemblerOf r).ackRecorded a window =
      (s.ackRecorded a window).withReassemblerOf r := by
  rw [ackRecorded_eq, ackRecorded_eq]
  rfl

theorem expire_withReassemblerOf (s r : State) (front : Entry) :
    (s.withReassemblerOf r).expire front = (s.expire front).withReassemblerOf r := by
  simp only [State.expire, backoff_eq]
  rfl

theorem execSndFill_withReassemblerOf (s r : State) :
    execSndFill (s.withReassemblerOf r) = onNext (·.withReassemblerOf r) (execSndFill s) := by
  rw [execSndFill, fill_withReassemblerOf, respondOk_withReassemblerOf]
  rfl

theorem ackValue_withReassemblerOf (s r : State) (ackno : Wire) :
    (s.withReassemblerOf r).ackValue ackno = s.ackValue ackno := rfl

theorem ackAccepted_withReassemblerOf (s r : State) (a : Nat) :
    (s.withReassemblerOf r).ackAccepted a = s.ackAccepted a := rfl

theorem execSndAck_withReassemblerOf (s r : State) :
    execSndAck (s.withReassemblerOf r) = onNext (·.withReassemblerOf r) (execSndAck s) := by
  simp only [execSndAck, withReassemblerOf_params, withReassemblerOf_port,
    ackValue_withReassemblerOf, ackAccepted_withReassemblerOf, ackRecorded_withReassemblerOf,
    fill_withReassemblerOf, respondOk_withReassemblerOf, raiseIllegal_withReassemblerOf]
  split
  · split <;> rfl
  · rfl

theorem accumulate_withReassemblerOf (s r : State) (elapsed : Word) :
    (s.withReassemblerOf r).accumulate elapsed = (s.accumulate elapsed).withReassemblerOf r := rfl

theorem execSndTick_withReassemblerOf (s r : State) :
    execSndTick (s.withReassemblerOf r) = onNext (·.withReassemblerOf r) (execSndTick s) := by
  cases running : s.tmrRunning with
  | false => simp only [execSndTick, withReassemblerOf_tmrRunning, running]; rfl
  | true =>
    cases queue : s.queue with
    | nil =>
      simp only [execSndTick, withReassemblerOf_tmrRunning, withReassemblerOf_queue, running, queue]
      rfl
    | cons front rest =>
      simp only [execSndTick, withReassemblerOf_tmrRunning, withReassemblerOf_queue, running, queue,
        withReassemblerOf_port, accumulate_withReassemblerOf, withReassemblerOf_tmrElapsed,
        withReassemblerOf_tmrRto, expire_withReassemblerOf, respondOk_withReassemblerOf, if_true]
      exact (apply_ite (onNext (·.withReassemblerOf r)) _ _ _).symm

theorem execSndEmpty_withReassemblerOf (s r : State) :
    execSndEmpty (s.withReassemblerOf r) = onNext (·.withReassemblerOf r) (execSndEmpty s) := rfl

/-! ### The reassembler over another sender -/

@[simp] theorem withSenderOf_params (s r : State) : (s.withSenderOf r).params = s.params := rfl
@[simp] theorem withSenderOf_port (s r : State) : (s.withSenderOf r).port = s.port := rfl
@[simp] theorem withSenderOf_window (s r : State) : (s.withSenderOf r).window = s.window := rfl
@[simp] theorem withSenderOf_raEnded (s r : State) : (s.withSenderOf r).raEnded = s.raEnded := rfl

theorem acceptLimit_withSenderOf (s r : State) :
    (s.withSenderOf r).acceptLimit = s.acceptLimit := rfl

theorem respondOk_withSenderOf (s r : State) (x : Word) :
    respondOk (s.withSenderOf r) x = onNext (·.withSenderOf r) (respondOk s x) := rfl

theorem raiseIllegal_withSenderOf (s r : State) :
    raiseIllegal (s.withSenderOf r) = onNext (·.withSenderOf r) (raiseIllegal s) := rfl

theorem storeByte_withSenderOf (s r : State) (k : Nat) (b : Byte) :
    (s.withSenderOf r).storeByte k b = (s.storeByte k b).withSenderOf r := by
  cases present : s.window.present k with
  | true => simp only [State.storeByte, withSenderOf_window, present, if_true]
  | false => simp only [State.storeByte, withSenderOf_window, present]; rfl

theorem storeRun_withSenderOf (s r : State) (k : Nat) (bs : List Byte) :
    (s.withSenderOf r).storeRun k bs = (s.storeRun k bs).withSenderOf r := by
  induction bs generalizing s k with
  | nil => rfl
  | cons b bs ih => rw [State.storeRun, storeByte_withSenderOf, ih, State.storeRun]

theorem afterStore_withSenderOf (s r : State) (start : Nat) (data : List Byte) :
    (s.withSenderOf r).afterStore start data = (s.afterStore start data).withSenderOf r :=
  storeRun_withSenderOf s r _ _

theorem markEnd_withSenderOf (s r : State) (last trunc : Bool) (e : Nat) :
    (s.withSenderOf r).markEnd last trunc e = (s.markEnd last trunc e).withSenderOf r := by
  rw [markEnd_frame, markEnd_frame]
  rfl

theorem drainLoop_withSenderOf (n : Nat) (s r : State) :
    drainLoop n (s.withSenderOf r) = (drainLoop n s).withSenderOf r := by
  induction n generalizing s with
  | zero => rfl
  | succ n ih =>
    simp only [drainLoop, withSenderOf_window]
    cases s.window.slot 0 with
    | none => rfl
    | some b => exact ih (s.drainOne b)

theorem drain_withSenderOf (s r : State) :
    (s.withSenderOf r).drain = s.drain.withSenderOf r :=
  drainLoop_withSenderOf s.window.length s r

theorem endCheck_withSenderOf (s r : State) :
    (s.withSenderOf r).endCheck = s.endCheck.withSenderOf r := by
  rw [endCheck_eq, endCheck_eq]
  rfl

theorem insert_withSenderOf (s r : State) (start : Nat) (data : List Byte) (last : Bool) :
    (s.withSenderOf r).insert start data last = (s.insert start data last).withSenderOf r := by
  rw [State.insert, afterStore_withSenderOf, acceptLimit_withSenderOf, markEnd_withSenderOf,
    drain_withSenderOf, endCheck_withSenderOf, State.insert]

theorem execRaInsert_withSenderOf (last : Bool) (s r : State) :
    execRaInsert last (s.withSenderOf r) = onNext (·.withSenderOf r) (execRaInsert last s) := by
  simp only [execRaInsert, withSenderOf_params, withSenderOf_port, withSenderOf_raEnded,
    insert_withSenderOf, respondOk_withSenderOf, raiseIllegal_withSenderOf]
  split
  · split <;> rfl
  · rfl

/-! ### The two units -/

/-- A command of the sender does the same over any reassembler and sink. -/
theorem exec_sender_withReassemblerOf {i : Instr}
    (hi : i = .sndFill ∨ i = .sndAck ∨ i = .sndTick ∨ i = .sndEmpty) (s r : State) :
    exec i (s.withReassemblerOf r) = onNext (·.withReassemblerOf r) (exec i s) := by
  obtain rfl | rfl | rfl | rfl := hi
  · exact execSndFill_withReassemblerOf s r
  · exact execSndAck_withReassemblerOf s r
  · exact execSndTick_withReassemblerOf s r
  · exact execSndEmpty_withReassemblerOf s r

/-- Settles O60: each replacement of the statement is the one of a state that differs from `s` in
just the replaced fields. -/
theorem unitsDoNotInterfere : Obligations.UnitsDoNotInterfere := by
  refine ⟨?sender, ?reassembler⟩
  case sender =>
    intro i s t base window unasm eofValid eofIndex ended sink hi h
    have same := exec_sender_withReassemblerOf hi s { s with
      raBase := base, window := window, raUnasm := unasm, raEofValid := eofValid,
      raEofIndex := eofIndex, raEnded := ended, sink := sink }
    rwa [h, onNext_next] at same
  case reassembler =>
    intro last s t state next inFlight peer queue running elapsed rto consec source segOut h
    have same := execRaInsert_withSenderOf last s { s with
      sndState := state, sndNext := next, sndBif := inFlight, sndWindow := peer, queue := queue,
      tmrRunning := running, tmrElapsed := elapsed, tmrRto := rto, tmrConsec := consec,
      source := source, segOut := segOut }
    have inserted : execRaInsert last s = .next t := h
    rwa [inserted, onNext_next] at same

end Sys2Proof.Machine
end

section
/-! What a command can do to the state before its answer is driven (00_scope.md R14,
60_exceptions.md R154), one case per effect, so that what every command keeps is proved by cases
over the effects. A command of the sender changes the sender's part only, an insert the reassembler's. -/

namespace Sys2Proof.Machine

open Sys2Proof

/-- The effects a command can have on a state. -/
inductive Effect (s : State) : State → Prop
  | nothing : Effect s s
  | insert (last : Bool) (admitted : insertOperandsOk s.params s.port = true)
      (notEnded : s.raEnded = false) : Effect s (s.insert s.port.opa.toNat s.port.data last)
  | fill : Effect s s.fill
  | ack (a : Nat) : Effect s (s.ackRecorded a (windowField s.params s.port.opb)).fill
  | timerStop (running : s.tmrRunning = true) (empty : s.queue = []) : Effect s s.timerStop
  | accumulate (x : Word) (outstanding : s.queue ≠ [])
      (below : (s.accumulate x).tmrElapsed.toNat < s.tmrRto.toNat) : Effect s (s.accumulate x)
  | expire (x : Word) (front : Entry) (outstanding : s.queue ≠ []) :
      Effect s ((s.accumulate x).expire front)
  | emitEmpty (e : Entry) : Effect s (s.emit .empty e)

/-- The outcome is one of the effects, answered. -/
def AnswersEffect (s : State) (o : Host.Outcome State Fault Refusal) : Prop :=
  ∃ u status res, Effect s u ∧ o = .next (u.answered status res)

theorem Effect.respondOk {s u : State} (h : Effect s u) (res : Word) :
    AnswersEffect s (respondOk u res) := ⟨u, .ok, res, h, rfl⟩

theorem answersEffect_raiseIllegal (s : State) : AnswersEffect s (raiseIllegal s) :=
  ⟨s, .illegal, 0, .nothing, rfl⟩

/-- A command whose operand checks come first (60_exceptions.md R154). -/
theorem AnswersEffect.orIllegal {s : State} {o : Host.Outcome State Fault Refusal} {ok : Bool}
    (h : ok = true → AnswersEffect s o) : AnswersEffect s (if ok then o else raiseIllegal s) := by
  cases ok with
  | true => exact h rfl
  | false => exact answersEffect_raiseIllegal s

theorem execRaInsert_effect (last : Bool) (s : State) : AnswersEffect s (execRaInsert last s) := by
  refine AnswersEffect.orIllegal fun admitted => ?_
  split
  · exact Effect.nothing.respondOk _
  · next notEnded => exact (Effect.insert last admitted (by simpa using notEnded)).respondOk _

theorem execSndAck_effect (s : State) : AnswersEffect s (execSndAck s) := by
  refine AnswersEffect.orIllegal fun _ => ?_
  simp only []
  split
  · exact (Effect.ack _).respondOk _
  · exact Effect.nothing.respondOk _

theorem execSndTick_effect (s : State) : AnswersEffect s (execSndTick s) := by
  unfold execSndTick
  split
  · next running =>
    split
    · next empty => exact (Effect.timerStop running empty).respondOk _
    · next front rest queue =>
      have outstanding : s.queue ≠ [] := by simp [queue]
      simp only []
      split
      · next below => exact (Effect.accumulate _ outstanding below).respondOk _
      · exact (Effect.expire _ front outstanding).respondOk _
  · exact Effect.nothing.respondOk _

theorem execRdreg_effect (regno : BitVec 8) (s : State) :
    AnswersEffect s (execRdreg regno s) := by
  unfold execRdreg
  split
  · exact Effect.nothing.respondOk _
  · exact answersEffect_raiseIllegal s

/-- Every command has one of the effects and answers. -/
theorem exec_effect (i : Instr) (s : State) : AnswersEffect s (exec i s) := by
  cases i with
  | nop => exact Effect.nothing.respondOk 0
  | sncWrap => exact AnswersEffect.orIllegal fun _ => Effect.nothing.respondOk _
  | sncUnwrap => exact AnswersEffect.orIllegal fun _ => Effect.nothing.respondOk _
  | raInsert last => exact execRaInsert_effect last s
  | sndFill => exact Effect.fill.respondOk 0
  | sndAck => exact execSndAck_effect s
  | sndTick => exact execSndTick_effect s
  | sndEmpty => exact (Effect.emitEmpty _).respondOk 0
  | rdreg regno => exact execRdreg_effect regno s

/-- Inversion of a command: the next state is an effect, answered. -/
theorem exec_cases {i : Instr} {s t : State} (h : exec i s = .next t) :
    ∃ u status res, Effect s u ∧ t = u.answered status res := by
  obtain ⟨u, status, res, effect, answers⟩ := exec_effect i s
  exact ⟨u, status, res, effect, by simpa using h.symm.trans answers⟩

/-! ### One unit at a time -/

theorem fill_eq_withSenderOf (s : State) : s.fill = s.withSenderOf s.fill := by
  obtain ⟨st, nx, b, q, r, e, bs, out, h⟩ := fill_frame s
  rw [h]
  rfl

theorem ackRecorded_eq_withSenderOf (s : State) (a : Nat) (window : Word) :
    s.ackRecorded a window = s.withSenderOf (s.ackRecorded a window) := by
  rw [ackRecorded_eq]
  rfl

theorem expire_eq_withSenderOf (s : State) (front : Entry) :
    s.expire front = s.withSenderOf (s.expire front) := by
  rw [State.expire, backoff_eq]
  rfl

theorem insert_eq_withReassemblerOf (s : State) (start : Nat) (data : List Byte) (last : Bool) :
    s.insert start data last = s.withReassemblerOf (s.insert start data last) := by
  obtain ⟨b, w, u, v, x, d, ev, h⟩ := insert_frame s start data last
  rw [h]
  rfl

/-- An effect writes the sender's part only, or is an insert before the end. -/
theorem Effect.unit_cases {s u : State} (h : Effect s u) :
    u = s.withSenderOf u ∨
      (insertOperandsOk s.params s.port = true ∧ s.raEnded = false ∧
        ∃ last, u = s.insert s.port.opa.toNat s.port.data last) := by
  cases h with
  | nothing => exact .inl rfl
  | insert last admitted notEnded => exact .inr ⟨admitted, notEnded, last, rfl⟩
  | fill => exact .inl (fill_eq_withSenderOf s)
  | ack a =>
    refine .inl ?_
    rw [fill_eq_withSenderOf, ackRecorded_eq_withSenderOf]
    rfl
  | timerStop _ _ => exact .inl rfl
  | accumulate _ _ _ => exact .inl rfl
  | expire x front _ =>
    refine .inl ?_
    rw [expire_eq_withSenderOf]
    rfl
  | emitEmpty _ => exact .inl rfl

/-- No effect writes the parameters, the configuration, the ports, the host's list or the sink's
capacity. -/
theorem Effect.frame {s u : State} (h : Effect s u) :
    u.params = s.params ∧ u.cfg = s.cfg ∧ u.port = s.port ∧ u.host = s.host ∧
      u.sink.capacity = s.sink.capacity := by
  obtain sender | ⟨_, _, last, rfl⟩ := h.unit_cases
  · rw [sender]
    exact ⟨rfl, rfl, rfl, rfl, rfl⟩
  · obtain ⟨b, w, n, v, x, d, ev, eq⟩ := insert_frame s s.port.opa.toNat s.port.data last
    rw [eq]
    exact ⟨rfl, rfl, rfl, rfl, rfl⟩

/-- Settles O14: the frame that every effect has. -/
theorem commandsWriteNoConfiguration : Obligations.CommandsWriteNoConfiguration := by
  intro i s t h
  obtain ⟨u, status, res, effect, rfl⟩ := exec_cases h
  obtain ⟨params, cfg, port, host, _⟩ := effect.frame
  exact ⟨params, cfg, port, host⟩

/-- Settles O34: after the end an insert is no effect, so only the sender's part is written. -/
theorem endIsFinal : Obligations.EndIsFinal := by
  intro i s t ended h
  obtain ⟨u, status, res, effect, rfl⟩ := exec_cases h
  obtain sender | ⟨_, notEnded, _⟩ := effect.unit_cases
  · rw [sender]
    exact ⟨ended, rfl, rfl, rfl, rfl⟩
  · rw [ended] at notEnded
    cases notEnded

end Sys2Proof.Machine
end

section
/-! The reassembler's invariants (41_reassembler.md R111): what one insert does to them, and that
they look at nothing but the reassembler, the output sink and the configuration. -/

namespace Sys2Proof.Machine

open Sys2Proof

/-! ### What the invariants look at -/

theorem limitOf_withReassemblerOf {s t : State} (hcfg : t.cfg = s.cfg) :
    limitOf (t.withReassemblerOf s) = limitOf s := by
  rw [limitOf, show (t.withReassemblerOf s).cfg = s.cfg from hcfg]
  rfl

theorem RaInv.of_same_reassembler {s t : State} (h : RaInv s) (hcfg : t.cfg = s.cfg)
    (same : t.withReassemblerOf s = t) : RaInv t := by
  rw [← same]
  exact {
    windowWf := h.windowWf
    slotZero := h.slotZero
    belowLimit := limitOf_withReassemblerOf hcfg ▸ h.belowLimit
    belowTop := h.belowTop
    unasm := h.unasm
    written := h.written
    readLe := h.readLe
    bufferedLe := hcfg ▸ h.bufferedLe
    trace := h.trace
    endSettled := h.endSettled }

theorem SinkInv.of_same_reassembler {s t : State} (h : SinkInv s) (hcfg : t.cfg = s.cfg)
    (same : t.withReassemblerOf s = t) : SinkInv t := by
  rw [← same]
  exact {
    written := h.written
    bufferedLe := hcfg ▸ h.bufferedLe
    limit := (limitOf_withReassemblerOf hcfg).trans (hcfg ▸ h.limit)
    trace := h.trace }

/-! ### The sink's trace -/

theorem map_byte_filterMap_written (bytes : List Byte) :
    (bytes.map SinkEvent.byte).filterMap SinkEvent.written = bytes :=
  List.filterMap_map.trans List.filterMap_some

/-- The end event writes no byte. -/
theorem filterMap_written_ite_eof (ended : Bool) :
    (if ended then [SinkEvent.eof] else []).filterMap SinkEvent.written = [] := by
  cases ended <;> rfl

/-- Present slots read in order give one byte each. -/
theorem length_filterMap_range_of_present {f : Nat → Option Byte} {d : Nat}
    (h : ∀ j, j < d → f j ≠ none) : ((List.range d).filterMap f).length = d := by
  induction d with
  | zero => rfl
  | succ d ih =>
    obtain ⟨b, hb⟩ := Option.ne_none_iff_exists'.1 (h d (Nat.lt_succ_self d))
    have := ih fun j hj => h j (Nat.lt_succ_of_lt hj)
    simpa [List.range_succ, hb] using this

/-! ### One insert -/

/-- What the invariants need of an insert from `s` to `t` that delivers `bytes`
(41_reassembler.md R98 to R102). -/
structure Inserted (s t : State) (bytes : List Byte) : Prop where
  cfg : t.cfg = s.cfg
  readCount : t.sink.readCount = s.sink.readCount
  base : t.raBase.toNat = s.raBase.toNat + bytes.length
  events : t.sink.events =
    s.sink.events ++ bytes.map .byte ++ (if t.raEnded then [.eof] else [])
  windowWf : t.window.wf
  slotZero : t.window.present 0 = false
  unasm : t.raUnasm.toNat = t.window.length
  /-- What stays in the window is below the limit computed before the insert. -/
  belowLimit : ∀ c ∈ t.window, t.raBase.toNat + c.1 < limitOf s
  belowTop : ∀ c ∈ t.window, t.raBase.toNat + c.1 < maxWord
  /-- So was what left it. -/
  baseLe : bytes ≠ [] → t.raBase.toNat ≤ limitOf s
  endSettled : t.endDue = t.raEnded

/-- Every cell after the store step stands below the limit and the top of the stream indices. -/
theorem afterStore_below {s : State} (h : RaInv s) {start : Nat} {data : List Byte}
    (top : start + data.length ≤ maxWord) :
    ∀ c ∈ (s.afterStore start data).window,
      s.raBase.toNat + c.1 < limitOf s ∧ s.raBase.toNat + c.1 < maxWord := by
  intro c hc
  obtain old | ⟨below_end, below_limit⟩ := afterStore_mem hc
  · exact ⟨h.belowLimit c old, h.belowTop c old⟩
  · exact ⟨below_limit, by omega⟩

/-- The count still follows the window after the store step: there is no room for 2^64 cells. -/
theorem afterStore_unasm {s : State} (h : RaInv s) {start : Nat} {data : List Byte}
    (top : start + data.length ≤ maxWord) :
    (s.afterStore start data).raUnasm.toNat = (s.afterStore start data).window.length := by
  refine storeRun_unasm h.unasm ?_
  have := Memory.length_le (storeRun_wf h.windowWf _ _ : (s.afterStore start data).window.wf)
    (Nat.zero_le maxWord)
    (fun c hc => ⟨Nat.zero_le _, by have := (afterStore_below h top c hc).2; omega⟩)
  exact Nat.lt_of_le_of_lt this (by decide)

/-- The drain and the end check, from a state `m` that differs from `s` by the store and the mark:
the drain delivers the slots before the first absent one. -/
theorem drain_endCheck_inserted {s m : State} (cfg : m.cfg = s.cfg) (base : m.raBase = s.raBase)
    (sink : m.sink = s.sink) (notEnded : m.raEnded = false) (wf : m.window.wf)
    (unasm : m.raUnasm.toNat = m.window.length)
    (below : ∀ c ∈ m.window, s.raBase.toNat + c.1 < limitOf s ∧ s.raBase.toNat + c.1 < maxWord) :
    ∃ bytes, Inserted s m.drain.endCheck bytes := by
  obtain ⟨d, present, absent, base', wf', slots, unasm', events⟩ :=
    drain_spec m wf unasm (base ▸ fun c hc => (below c hc).2)
  obtain ⟨_, _, _, _, drained⟩ := drain_frame m
  have drainEnded : m.drain.raEnded = false := by rw [drained]; exact notEnded
  rw [base] at base'
  have left : ∀ c ∈ m.drain.window, m.drain.raBase.toNat + c.1 < limitOf s ∧
      m.drain.raBase.toNat + c.1 < maxWord := by
    intro c hc
    have slot := (slots c.1).symm.trans (Memory.slot_of_mem wf' hc)
    rw [base', Nat.add_assoc, Nat.add_comm d]
    exact below _ (Memory.mem_of_slot slot)
  have length := length_filterMap_range_of_present present
  refine ⟨(List.range d).filterMap m.window.slot, ?_⟩
  rw [endCheck_eq]
  constructor
  case cfg => rw [drained]; exact cfg
  case readCount => rw [drained]; exact sink ▸ rfl
  case base => rw [length, base']
  case events => simp [events, drainEnded, sink]
  case windowWf => exact wf'
  case slotZero => simp [Memory.present, slots, absent]
  case unasm => exact unasm'
  case belowLimit => exact fun c hc => (left c hc).1
  case belowTop => exact fun c hc => (left c hc).2
  case baseLe =>
    intro nonempty
    have pos : 0 < d := length ▸ List.length_pos_iff.2 nonempty
    obtain ⟨b, hb⟩ := Option.ne_none_iff_exists'.1 (present (d - 1) (by omega))
    have lastBelow : s.raBase.toNat + (d - 1) < limitOf s := (below _ (Memory.mem_of_slot hb)).1
    simp only [base']
    omega
  case endSettled =>
    show m.drain.endDue = (m.drain.endDue || m.drain.raEnded)
    simp [drainEnded]

/-- An admitted insert before the end. -/
theorem insert_inserted {s : State} (h : RaInv s) (notEnded : s.raEnded = false) {start : Nat}
    {data : List Byte} (top : start + data.length ≤ maxWord) (last : Bool) :
    ∃ bytes, Inserted s (s.insert start data last) bytes := by
  have below := afterStore_below h top
  have wf : (s.afterStore start data).window.wf := storeRun_wf h.windowWf _ _
  have unasm := afterStore_unasm h top
  obtain ⟨w, n, stored⟩ := afterStore_frame s start data
  rw [stored] at below wf unasm
  rw [State.insert, markEnd_frame, stored]
  exact drain_endCheck_inserted rfl rfl rfl notEnded wf unasm below

section
variable {s t : State} {bytes : List Byte}

theorem Inserted.sink_bytes (i : Inserted s t bytes) : t.sink.bytes = s.sink.bytes ++ bytes := by
  rw [Sink.bytes, i.events, List.filterMap_append, List.filterMap_append,
    map_byte_filterMap_written, filterMap_written_ite_eof, List.append_nil, Sink.bytes]

/-- The delivered bytes never fill the sink beyond the capacity (41_reassembler.md R111 f). -/
theorem Inserted.buffered_le (i : Inserted s t bytes)
    (before : bytes = [] → s.sink.buffered ≤ s.cfg.capacity.toNat)
    (readLe : s.sink.readCount ≤ s.sink.bytes.length) :
    t.sink.buffered ≤ t.cfg.capacity.toNat := by
  have base := i.base
  have baseLe := i.baseLe
  simp only [Sink.buffered, i.cfg, i.readCount, i.sink_bytes, List.length_append, limitOf] at *
  by_cases none : bytes = []
  · simpa [none] using before none
  · have := baseLe none
    have := List.length_pos_iff.2 none
    omega

/-- The acceptance limit stays: it rises with the base and falls with the bytes buffered. -/
theorem Inserted.limit (i : Inserted s t bytes)
    (readLe : s.sink.readCount ≤ s.sink.bytes.length) : limitOf t = limitOf s := by
  have base := i.base
  have baseLe := i.baseLe
  simp only [i.cfg, i.readCount, i.sink_bytes, List.length_append, limitOf] at *
  by_cases none : bytes = []
  · simp [none] at base ⊢
    omega
  · have := baseLe none
    have := List.length_pos_iff.2 none
    omega

theorem Inserted.delivered (i : Inserted s t bytes)
    (written : s.raBase.toNat ≤ s.sink.bytes.length) : t.delivered = s.delivered ++ bytes := by
  have start : (s.sink.bytes ++ bytes).length - (s.raBase.toNat + bytes.length) =
      s.sink.bytes.length - s.raBase.toNat := by
    simp only [List.length_append]
    omega
  rw [State.delivered, State.delivered, i.sink_bytes, i.base, start,
    List.drop_append_of_le_length (Nat.sub_le _ _)]

/-- An insert before the end keeps the reassembler's invariant. -/
theorem RaInv.inserted (h : RaInv s) (notEnded : s.raEnded = false) (i : Inserted s t bytes) :
    RaInv t where
  windowWf := i.windowWf
  slotZero := i.slotZero
  belowLimit := i.limit h.readLe ▸ i.belowLimit
  belowTop := i.belowTop
  unasm := i.unasm
  written := by
    have := h.written
    rw [i.base, i.sink_bytes, List.length_append]
    omega
  readLe := by
    have := h.readLe
    rw [i.readCount, i.sink_bytes, List.length_append]
    omega
  bufferedLe := fun pos => i.buffered_le
    (fun none => h.bufferedLe (by have := i.base; simp [none] at this; omega)) h.readLe
  trace := by
    have trace := h.trace
    simp only [State.deliveredEvents, notEnded] at trace
    rw [State.deliveredEvents, i.delivered h.written, i.events, List.map_append]
    obtain ⟨older, eq⟩ := trace
    exact ⟨older, by simp [← eq]⟩
  endSettled := i.endSettled

/-- An insert before the end keeps the invariant of a sink that was started fresh. -/
theorem SinkInv.inserted (h : SinkInv s) (readLe : s.sink.readCount ≤ s.sink.bytes.length)
    (notEnded : s.raEnded = false) (i : Inserted s t bytes) : SinkInv t where
  written := by rw [i.sink_bytes, List.length_append, h.written, i.base]
  bufferedLe := i.buffered_le (fun _ => h.bufferedLe) readLe
  limit := by rw [i.limit readLe, h.limit, i.cfg, i.readCount]
  trace := by
    have trace := h.trace
    simp only [notEnded] at trace
    rw [i.events, i.sink_bytes, List.map_append]
    conv_lhs => rw [trace]
    simp

end

/-! ### Every effect -/

theorem le_maxWord_of_insertOperandsOk {p : Params} {c : Command}
    (h : insertOperandsOk p c = true) : c.opa.toNat + c.data.length ≤ maxWord := by
  simp only [insertOperandsOk, Bool.and_eq_true, decide_eq_true_eq] at h
  exact h.2

/-- An effect leaves the reassembler and the sink alone, or is an insert before the end. -/
theorem Effect.inserted_or_same {s u : State} (h : RaInv s) (effect : Effect s u) :
    u.withReassemblerOf s = u ∨ (s.raEnded = false ∧ ∃ bytes, Inserted s u bytes) := by
  obtain sender | ⟨admitted, notEnded, last, rfl⟩ := effect.unit_cases
  · rw [sender]
    exact .inl rfl
  · exact .inr ⟨notEnded, insert_inserted h notEnded (le_maxWord_of_insertOperandsOk admitted) last⟩

theorem Effect.keeps_raInv {s u : State} (effect : Effect s u) (h : RaInv s) : RaInv u := by
  obtain ⟨_, cfg, _⟩ := effect.frame
  obtain same | ⟨notEnded, bytes, i⟩ := effect.inserted_or_same h
  · exact h.of_same_reassembler cfg same
  · exact h.inserted notEnded i

theorem Effect.keeps_sinkInv {s u : State} (effect : Effect s u) (h : RaInv s) (hk : SinkInv s) :
    SinkInv u := by
  obtain ⟨_, cfg, _⟩ := effect.frame
  obtain same | ⟨notEnded, bytes, i⟩ := effect.inserted_or_same h
  · exact hk.of_same_reassembler cfg same
  · exact hk.inserted h.readLe notEnded i

/-- Settles O33: the bytes are those an insert delivers, none for every other effect. -/
theorem baseCountsDeliveredBytes : Obligations.BaseCountsDeliveredBytes := by
  intro i s t h run
  obtain ⟨u, status, res, effect, rfl⟩ := exec_cases run
  obtain same | ⟨_, bytes, inserted⟩ := effect.inserted_or_same h
  · rw [← same]
    exact ⟨[], (List.append_nil _).symm, rfl⟩
  · exact ⟨bytes, inserted.sink_bytes, inserted.base⟩

end Sys2Proof.Machine
end

section
/-! The sender's invariant (10_state.md R34, R39, R44, R45): what one emitted segment, one `fill()`,
one accepted ack and one tick do to it. -/

namespace Sys2Proof.Machine

open Sys2Proof

/-! ### What the invariant looks at -/

/-- The invariant looks at the sender's part, the parameters and the configuration. -/
theorem SndInv.of_same_sender {s t : State} (h : SndInv s) (hparams : t.params = s.params)
    (hcfg : t.cfg = s.cfg) (same : t.withSenderOf s = t) : SndInv t := by
  rw [← same]
  exact {
    chain := h.chain
    lenPos := h.lenPos
    payloadLe := hcfg ▸ h.payloadLe
    inFlight := h.inFlight
    depth := hparams ▸ h.depth
    windowFits := hparams ▸ h.windowFits
    running := h.running
    idle := hcfg ▸ h.idle
    elapsed := h.elapsed
    phase := h.phase }

/-- Only the state machine's own invariant looks at the input source and at `snd_state`, and nothing
looks at the segment output. -/
theorem SndInv.of_phase {s : State} (h : SndInv s) {st : SndState} {src : Source}
    {out : List Record} (phase : phaseInv { s with sndState := st, source := src }) :
    SndInv { s with sndState := st, source := src, segOut := out } where
  chain := h.chain
  lenPos := h.lenPos
  payloadLe := h.payloadLe
  inFlight := h.inFlight
  depth := h.depth
  windowFits := h.windowFits
  running := h.running
  idle := h.idle
  elapsed := h.elapsed
  phase := phase

/-- While a segment is outstanding the timer's values are free but for the accumulator's bound. -/
theorem SndInv.of_timer {s : State} (h : SndInv s) (outstanding : s.queue ≠ [])
    {elapsed rto consec : Word} (below : elapsed = 0 ∨ elapsed.toNat < rto.toNat) :
    SndInv { s with tmrElapsed := elapsed, tmrRto := rto, tmrConsec := consec } where
  chain := h.chain
  lenPos := h.lenPos
  payloadLe := h.payloadLe
  inFlight := h.inFlight
  depth := h.depth
  windowFits := h.windowFits
  running := h.running
  idle := fun empty => absurd empty outstanding
  elapsed := below
  phase := h.phase

theorem SndInv.emit {s : State} (h : SndInv s) (kind : SegKind) (e : Entry) :
    SndInv (s.emit kind e) :=
  h.of_phase (st := s.sndState) (src := s.source) h.phase

/-! ### A new segment -/

theorem toNat_ofNat_of_le_maxWord {x : Nat} (h : x ≤ maxWord) : (BitVec.ofNat 64 x).toNat = x := by
  rw [BitVec.toNat_ofNat]
  exact Nat.mod_eq_of_lt (Nat.lt_succ_of_le h)

theorem queueFull_eq_false_iff (s : State) :
    s.queueFull = false ↔ ∀ d ∈ s.params.qDepth, s.queue.length ≠ d.toNat := by
  unfold State.queueFull
  cases s.params.qDepth <;> simp

/-- No more is in flight than was ever sent (10_state.md R39 d). -/
theorem SndInv.inFlight_le_sndNext {s : State} (h : SndInv s) :
    s.sndBif.toNat ≤ s.sndNext.toNat := by
  have := queueStart_add_totalLen s.queue s.sndNext.toNat h.chain
  rw [h.inFlight]
  omega

/-- A segment that is not empty, of a legal payload, within the sequence space and with a free queue
entry keeps all of the invariant but the state machine's part, which is the caller's to show. -/
theorem SndInv.emitNew {s : State} (h : SndInv s) {syn fin : Bool} {payload : List Byte}
    {st : SndState} (lenPos : 1 ≤ payload.length + syn.toNat + fin.toNat)
    (payloadLe : payload.length ≤ s.cfg.maxPayload.toNat)
    (top : s.sndNext.toNat + (payload.length + syn.toNat + fin.toNat) ≤ maxWord)
    (free : s.queueFull = false)
    (phase : phaseInv { s.emitNew syn fin payload with sndState := st }) :
    SndInv { s.emitNew syn fin payload with sndState := st } := by
  have inFlightLe := h.inFlight_le_sndNext
  have next := toNat_ofNat_of_le_maxWord top
  have inFlight : (BitVec.ofNat 64
      (s.sndBif.toNat + (payload.length + syn.toNat + fin.toNat))).toNat =
        s.sndBif.toNat + (payload.length + syn.toNat + fin.toNat) :=
    toNat_ofNat_of_le_maxWord (by omega)
  rw [emitNew_eq] at phase ⊢
  constructor
  case chain =>
    rw [next]
    exact contiguous_append s.queue _ ⟨s.sndNext, syn, fin, payload⟩ h.chain rfl
  case lenPos => exact List.forall_mem_append.2 ⟨h.lenPos, List.forall_mem_singleton.2 lenPos⟩
  case payloadLe =>
    exact List.forall_mem_append.2 ⟨h.payloadLe, List.forall_mem_singleton.2 payloadLe⟩
  case inFlight =>
    rw [inFlight, h.inFlight, totalLen_append]
    rfl
  case depth =>
    intro d hd
    have le := h.depth d hd
    have ne := (queueFull_eq_false_iff s).1 free d hd
    simp only [List.length_append, List.length_singleton]
    omega
  case windowFits => exact h.windowFits
  case running => simp
  case idle => simp
  case elapsed =>
    simp only []
    split
    · exact h.elapsed
    · exact .inl rfl
  case phase => exact phase

/-! ### The send loop -/

theorem sendSegment_eq (s : State) (n : Nat) (fin : Bool) :
    s.sendSegment n fin =
      { (s.srcConsume n).emitNew false fin (s.srcFront n) with
        sndState := if fin then .finSent else s.sndState } := by
  simp only [State.sendSegment]
  cases fin with
  | true => rfl
  | false =>
    rw [emitNew_eq]
    rfl

/-- In SYN_ACKED no outstanding segment carries a SYN or a FIN. -/
theorem SndInv.phase_synAcked {s : State} (h : SndInv s) (hs : s.sndState = .synAcked) :
    1 ≤ s.sndNext.toNat ∧ ∀ e ∈ s.queue, e.syn = false ∧ e.fin = false := by
  have phase := h.phase
  rwa [phaseInv, hs] at phase

/-- A FIN behind a queue without one is its last entry's. -/
theorem finIsLast_append {q : List Entry} {e : Entry}
    (h : ∀ x ∈ q, x.syn = false ∧ x.fin = false) (hsyn : e.syn = false) (hfin : e.fin = true) :
    finIsLast (q ++ [e]) := by
  refine ⟨?syn, ?before, ?last⟩
  case syn =>
    exact List.forall_mem_append.2 ⟨fun x hx => (h x hx).1, List.forall_mem_singleton.2 hsyn⟩
  case before =>
    rw [List.dropLast_concat]
    exact fun x hx => (h x hx).2
  case last => simpa using hfin

/-- One turn of the loop keeps the invariant. -/
theorem SndInv.sendSegment {s : State} (h : SndInv s) (hs : s.sndState = .synAcked) {n : Nat}
    {fin : Bool} (due : s.nextSegment = some (n, fin)) : SndInv (s.sendSegment n fin) := by
  obtain ⟨avail, _, payloadLe, pos, top, last, free⟩ := nextSegment_bounds due
  obtain ⟨nextPos, plain⟩ := h.phase_synAcked hs
  have length := srcFront_length avail
  have consumed : SndInv (s.srcConsume n) := h.of_phase (by simpa only [phaseInv, hs] using h.phase)
  rw [sendSegment_eq]
  refine consumed.emitNew (by simpa [length] using pos) (by simpa [length] using payloadLe)
    (by simpa [length, Nat.add_assoc] using top) free ?phase
  rw [emitNew_eq]
  cases fin with
  | true =>
    obtain ⟨ended, all⟩ := last rfl
    refine ⟨finIsLast_append plain rfl rfl, ?_⟩
    simp [State.srcConsume, ended, all, State.srcAvail]
  | false =>
    simp only [phaseInv, hs, srcConsume_sndNext, length]
    refine ⟨?_, List.forall_mem_append.2 ⟨plain, List.forall_mem_singleton.2 ⟨rfl, rfl⟩⟩⟩
    rw [toNat_ofNat_of_le_maxWord (by simpa [Nat.add_assoc] using top)]
    exact Nat.le_trans nextPos (Nat.le_add_right _ _)

theorem sendSegment_sndNext_le {s : State} {n : Nat} {fin : Bool}
    (due : s.nextSegment = some (n, fin)) :
    s.sndNext.toNat ≤ (s.sendSegment n fin).sndNext.toNat := by
  obtain ⟨avail, _, _, _, top, _, _⟩ := nextSegment_bounds due
  rw [sendSegment_eq, emitNew_eq]
  simp only [srcFront_length avail, srcConsume_sndNext]
  rw [toNat_ofNat_of_le_maxWord (by simpa [Nat.add_assoc] using top)]
  exact Nat.le_add_right _ _

/-! ### `fill()` -/

/-- In CLOSED nothing was sent and nothing is outstanding. -/
theorem SndInv.phase_closed {s : State} (h : SndInv s) (hs : s.sndState = .closed) :
    s.sndNext = 0 ∧ s.queue = [] := by
  have phase := h.phase
  rwa [phaseInv, hs] at phase

/-- A legal queue has room for an entry. -/
theorem qDepth_pos_of_configLegal {p : Params} {c : Config} (h : configLegal p c = true) :
    ∀ d ∈ p.qDepth, 1 ≤ d.toNat := by
  simp only [configLegal, Bool.and_eq_true, Option.all_eq_true, decide_eq_true_eq] at h
  exact h.1.2

/-- `fill()` keeps the invariant, in every state of the sender (42_sender.md R119). -/
theorem SndInv.fill {s : State} (h : SndInv s) (legal : configLegal s.params s.cfg = true) :
    SndInv s.fill := by
  unfold State.fill
  split
  · next closed =>
    obtain ⟨next, empty⟩ := h.phase_closed closed
    have free : s.queueFull = false := (queueFull_eq_false_iff s).2 fun d hd => by
      have := qDepth_pos_of_configLegal legal d hd
      simp only [empty, List.length_nil]
      omega
    refine h.emitNew (by decide) (Nat.zero_le _) (by simp [next, maxWord]) free ?_
    rw [emitNew_eq]
    simp [phaseInv, next, empty]
  · exact h
  · exact h
  · next acked =>
    exact fillLoop_induct (P := SndInv) (fun _ _ _ h hs due => h.sendSegment hs due) _ s acked h

theorem SndInv.sndNext_le_fill {s : State} (h : SndInv s) :
    s.sndNext.toNat ≤ s.fill.sndNext.toNat := by
  unfold State.fill
  split
  · next closed => simp [(h.phase_closed closed).1]
  · exact Nat.le_refl _
  · exact Nat.le_refl _
  · next acked =>
    exact fillLoop_induct (P := fun t => s.sndNext.toNat ≤ t.sndNext.toNat)
      (fun _ _ _ le _ due => Nat.le_trans le (sendSegment_sndNext_le due)) _ s acked
      (Nat.le_refl _)

/-! ### The accepted ack -/

theorem mem_of_mem_unackedEntries {a : Nat} {q : List Entry} {e : Entry}
    (h : e ∈ unackedEntries a q) : e ∈ q :=
  (List.dropWhile_sublist _).mem h

theorem finIsLast_unackedEntries {q : List Entry} (h : finIsLast q) (a : Nat) :
    finIsLast (unackedEntries a q) := by
  obtain ⟨syn, before, last⟩ := h
  have split := acked_append_unacked a q
  by_cases none : unackedEntries a q = []
  · simp [none, finIsLast]
  · rw [← split, List.dropLast_append_of_ne_nil none] at before
    rw [← split, List.getLast?_append_of_ne_nil _ none] at last
    exact ⟨fun e he => syn e (mem_of_mem_unackedEntries he),
      fun e he => before e (List.mem_append_right _ he), last⟩

/-- What an ack does to the state machine's own invariant (42_sender.md R130): an ack of at least 1
in SYN_SENT pops the SYN, the one outstanding segment. -/
theorem SndInv.phase_ackRecorded {s : State} (h : SndInv s) (a : Nat) (window : Word) :
    phaseInv (s.ackRecorded a window) := by
  have phase := h.phase
  rw [ackRecorded_eq]
  simp only [phaseInv]
  unfold phaseInv at phase
  cases hs : s.sndState with
  | closed =>
    obtain ⟨next, empty⟩ := h.phase_closed hs
    simp [next, empty, unackedEntries]
  | synSent =>
    simp only [hs] at phase
    obtain ⟨next, syn⟩ := phase
    by_cases covers : 1 ≤ a <;> simp [covers, next, syn, unackedEntries, Entry.endSeq, Entry.len]
  | synAcked =>
    obtain ⟨next, plain⟩ := h.phase_synAcked hs
    exact ⟨next, fun e he => plain e (mem_of_mem_unackedEntries he)⟩
  | finSent =>
    simp only [hs] at phase
    exact ⟨finIsLast_unackedEntries phase.1 a, phase.2⟩

theorem totalLen_acked_add_unacked (a : Nat) (q : List Entry) :
    totalLen (ackedEntries a q) + totalLen (unackedEntries a q) = totalLen q := by
  conv_rhs => rw [← acked_append_unacked a q]
  simp [totalLen]

theorem unackedEntries_of_ackedEntries_eq_nil {a : Nat} {q : List Entry}
    (h : ackedEntries a q = []) : unackedEntries a q = q := by
  simpa [h] using acked_append_unacked a q

/-- An ack with a window of WIN_BITS bits keeps the invariant up to its `fill()`. -/
theorem SndInv.ackRecorded {s : State} (h : SndInv s) (a : Nat) {window : Word}
    (fits : window.toNat < 2 ^ s.params.winBits) : SndInv (s.ackRecorded a window) := by
  have phase := h.phase_ackRecorded a window
  have total := totalLen_acked_add_unacked a s.queue
  have length : (unackedEntries a s.queue).length ≤ s.queue.length :=
    (List.dropWhile_sublist _).length_le
  rw [ackRecorded_eq] at phase ⊢
  constructor
  case chain => exact contiguous_unacked a _ _ h.chain
  case lenPos => exact fun e he => h.lenPos e (mem_of_mem_unackedEntries he)
  case payloadLe => exact fun e he => h.payloadLe e (mem_of_mem_unackedEntries he)
  case inFlight =>
    have := h.inFlight
    simp only []
    rw [foldl_sub_len _ _ (by omega)]
    omega
  case depth => exact fun d hd => Nat.le_trans length (h.depth d hd)
  case windowFits => exact fits
  case running =>
    have running := h.running
    cases popped : ackedEntries a s.queue with
    | nil => simp [running, unackedEntries_of_ackedEntries_eq_nil popped]
    | cons e q => simp
  case idle =>
    intro left
    simp only [] at left
    cases popped : ackedEntries a s.queue with
    | nil =>
      obtain ⟨rto, consec, _⟩ := h.idle (unackedEntries_of_ackedEntries_eq_nil popped ▸ left)
      simp [left, rto, consec]
    | cons e q => simp [left]
  case elapsed =>
    have elapsed := h.elapsed
    cases popped : ackedEntries a s.queue with
    | nil =>
      simp only []
      split
      · exact .inl rfl
      · simpa using elapsed
    | cons e q => simp
  case phase => exact phase

/-! ### The tick -/

/-- An expiry restarts the accumulator (43_timer.md R140). -/
theorem SndInv.expire {s : State} (h : SndInv s) (x : Word) (front : Entry)
    (outstanding : s.queue ≠ []) : SndInv ((s.accumulate x).expire front) := by
  rw [State.expire, backoff_eq]
  exact (h.emit .retx front).of_timer outstanding (.inl rfl)

/-! ### Every effect -/

theorem Effect.keeps_sndInv {s u : State} (effect : Effect s u) (h : SndInv s)
    (legal : configLegal s.params s.cfg = true) : SndInv u := by
  cases effect with
  | nothing => exact h
  | insert last _ _ =>
    rw [insert_eq_withReassemblerOf]
    exact h.of_same_sender rfl rfl rfl
  | fill => exact h.fill legal
  | ack a =>
    refine (h.ackRecorded a (lowBits_lt _ _)).fill ?_
    rw [ackRecorded_eq_withSenderOf]
    exact legal
  | timerStop running empty =>
    have := h.running
    simp [running, empty] at this
  | accumulate x outstanding below => exact h.of_timer outstanding (.inr below)
  | expire x front outstanding => exact h.expire x front outstanding
  | emitEmpty e => exact h.emit .empty e

theorem Effect.sndNext_le {s u : State} (effect : Effect s u) (h : SndInv s) :
    s.sndNext.toNat ≤ u.sndNext.toNat := by
  cases effect with
  | insert last _ _ => rw [insert_eq_withReassemblerOf]; exact Nat.le_refl _
  | fill => exact h.sndNext_le_fill
  | ack a =>
    have le := (h.ackRecorded a (lowBits_lt s.params.winBits s.port.opb)).sndNext_le_fill
    rwa [ackRecorded_eq] at le ⊢
  | expire x front _ => rw [State.expire, backoff_eq]; exact Nat.le_refl _
  | nothing => exact Nat.le_refl _
  | timerStop _ _ => exact Nat.le_refl _
  | accumulate _ _ _ => exact Nat.le_refl _
  | emitEmpty _ => exact Nat.le_refl _

/-- Settles O50: `fill()` alone moves `snd_next`, by the length of what it sends. -/
theorem sndNextNeverDecreases : Obligations.SndNextNeverDecreases := by
  intro i s t h run
  obtain ⟨u, status, res, effect, rfl⟩ := exec_cases run
  exact effect.sndNext_le h

end Sys2Proof.Machine
end

section
/-! The steps of the machine (00_scope.md R13): what each host event answers when its duty is kept,
what a reset leaves, and from that the invariants of the command boundary (10_state.md R24, R34,
R39, R44, R45; 41_reassembler.md R111) over every step. -/

namespace Sys2Proof.Machine

open Sys2Proof

/-! ### Host events whose duties are kept -/

theorem runCommand_of_decode_ok {s : State} {c : Command} {i : Instr} (h : HostInv s)
    (hi : decode c.cmd = .ok i) : runCommand c s = exec i (s.withPort c) := by
  simp only [runCommand, h.legal, h.sinkFits, hi, if_true]

theorem takeReset_of_legal {s : State} {cfg : Config} (legal : configLegal s.params cfg = true)
    (fits : sinkLargeEnough s.sink cfg = true) : takeReset cfg s = .next (s.resetBlock cfg) := by
  simp only [takeReset, legal, fits, if_true]

theorem hostWrite_of_open {s : State} (bytes : List Byte) (h : s.source.ended = false) :
    hostWrite bytes s = .next { s with source := ⟨s.source.bytes ++ bytes, false⟩ } := by
  simp [hostWrite, h]

theorem hostRead_of_le {s : State} {n : Nat} (h : n ≤ s.sink.buffered) :
    hostRead n s =
      .next { s with sink := { s.sink with readCount := s.sink.readCount + n } } :=
  if_pos h

/-! ### Inversion: the next state of a host event -/

/-- A command that is not refused runs, or is answered ILLEGAL for its word. -/
theorem runCommand_cases {c : Command} {s t : State} (h : runCommand c s = .next t) :
    ∃ u status res, Effect (s.withPort c) u ∧ t = u.answered status res := by
  unfold runCommand at h
  split at h
  · split at h
    · split at h
      · exact exec_cases h
      · exact ⟨_, .illegal, 0, .nothing, by simpa [State.answered] using h.symm⟩
    · cases h
  · cases h

/-- A reset that is not refused meets the host's duties. -/
theorem takeReset_cases {cfg : Config} {s t : State} (h : takeReset cfg s = .next t) :
    configLegal s.params cfg = true ∧ sinkLargeEnough s.sink cfg = true ∧
      t = s.resetBlock cfg := by
  unfold takeReset at h
  split at h
  · next legal =>
    split at h
    · next fits => exact ⟨legal, fits, by simpa using h.symm⟩
    · cases h
  · cases h

/-- After its end the source takes no byte. -/
theorem hostWrite_cases {bytes : List Byte} {s t : State} (h : hostWrite bytes s = .next t) :
    (s.source.ended = true → bytes = []) ∧
      t = { s with source := { s.source with bytes := s.source.bytes ++ bytes } } := by
  unfold hostWrite at h
  split at h
  · cases h
  · next duty => exact ⟨by simpa using duty, by simpa using h.symm⟩

theorem hostRead_cases {n : Nat} {s t : State} (h : hostRead n s = .next t) :
    n ≤ s.sink.buffered ∧
      t = { s with sink := { s.sink with readCount := s.sink.readCount + n } } := by
  unfold hostRead at h
  split at h
  · next duty => exact ⟨duty, by simpa using h.symm⟩
  · cases h

/-! ### The host's duties -/

theorem HostInv.of_eq {s t : State} (h : HostInv s) (params : t.params = s.params)
    (cfg : t.cfg = s.cfg) (capacity : t.sink.capacity = s.sink.capacity) : HostInv t where
  legal := by rw [params, cfg]; exact h.legal
  sinkFits := by rw [sinkLargeEnough, cfg, capacity]; exact h.sinkFits

/-! ### Interface, command and answer -/

/-- The ports, the answer and the host's list are in no invariant. -/
theorem Inv.of_same_block {s t : State} (h : Inv s) (params : t.params = s.params)
    (cfg : t.cfg = s.cfg) (ra : t.withReassemblerOf s = t) (snd : t.withSenderOf s = t) :
    Inv t where
  host := h.host.of_eq params cfg (by rw [← ra]; rfl)
  ra := h.ra.of_same_reassembler cfg ra
  snd := h.snd.of_same_sender params cfg snd

theorem Effect.keeps_inv {s u : State} (effect : Effect s u) (h : Inv s) : Inv u := by
  obtain ⟨params, cfg, _, _, capacity⟩ := effect.frame
  exact ⟨h.host.of_eq params cfg capacity, effect.keeps_raInv h.ra,
    effect.keeps_sndInv h.snd h.host.legal⟩

theorem runCommand_keeps_inv {c : Command} {s t : State} (h : Inv s)
    (run : runCommand c s = .next t) : Inv t := by
  obtain ⟨u, status, res, effect, rfl⟩ := runCommand_cases run
  have sampled : Inv (s.withPort c) := h.of_same_block rfl rfl rfl rfl
  exact (effect.keeps_inv sampled).of_same_block rfl rfl rfl rfl

theorem runCommand_keeps_sinkInv {c : Command} {s t : State} (h : RaInv s) (hk : SinkInv s)
    (run : runCommand c s = .next t) : SinkInv t := by
  obtain ⟨u, status, res, effect, rfl⟩ := runCommand_cases run
  have sampled : RaInv (s.withPort c) := h.of_same_reassembler rfl rfl
  exact (effect.keeps_sinkInv sampled (hk.of_same_reassembler rfl rfl)).of_same_reassembler rfl rfl

/-! ### Reset -/

theorem winBits_of_configLegal {p : Params} {c : Config} (h : configLegal p c = true) :
    p.winBits = 16 := by
  simp only [configLegal, Bool.and_eq_true, decide_eq_true_eq] at h
  exact h.1.1.2

/-- A reset makes a good state over every sink the application has not overread. -/
theorem inv_resetBlock {s : State} {cfg : Config} (legal : configLegal s.params cfg = true)
    (fits : sinkLargeEnough s.sink cfg = true)
    (readLe : s.sink.readCount ≤ s.sink.bytes.length) : Inv (s.resetBlock cfg) where
  host := ⟨legal, fits⟩
  ra := {
    windowWf := Memory.wf_nil
    slotZero := rfl
    belowLimit := by simp
    belowTop := by simp
    unasm := rfl
    written := Nat.zero_le _
    readLe := readLe
    bufferedLe := fun pos => absurd pos (Nat.lt_irrefl 0)
    trace := by simp [State.deliveredEvents, State.delivered]
    endSettled := rfl }
  snd := {
    chain := trivial
    lenPos := by simp
    payloadLe := by simp
    inFlight := rfl
    depth := by simp
    windowFits := by simp [winBits_of_configLegal legal]
    running := rfl
    idle := fun _ => ⟨rfl, rfl, rfl⟩
    elapsed := .inl rfl
    phase := ⟨rfl, rfl⟩ }

/-- Over a sink to which nothing was written, a reset starts the trace anew. -/
theorem sinkInv_resetBlock {s : State} (cfg : Config) (fresh : s.sink.events = [])
    (readLe : s.sink.readCount ≤ s.sink.bytes.length) : SinkInv (s.resetBlock cfg) := by
  have bytes : s.sink.bytes = [] := by rw [Sink.bytes, fresh]; rfl
  have unread : s.sink.readCount = 0 := by simpa [bytes] using readLe
  exact {
    written := by simp [bytes]
    bufferedLe := by simp [Sink.buffered, bytes]
    limit := by simp [limitOf, bytes, unread]
    trace := by simp [bytes, fresh] }

/-- The state right after reset is what a reset leaves of itself. -/
theorem resetWith_eq_resetBlock (p : Params) (cfg : Config) (cap : Nat) :
    State.resetWith p cfg cap = (State.resetWith p cfg cap).resetBlock cfg := rfl

theorem inv_resetWith {p : Params} {cfg : Config} {cap : Nat} (legal : configLegal p cfg = true)
    (fits : cfg.capacity.toNat ≤ cap) :
    Inv (State.resetWith p cfg cap) ∧ SinkInv (State.resetWith p cfg cap) := by
  rw [resetWith_eq_resetBlock]
  exact ⟨inv_resetBlock legal (decide_eq_true fits) (Nat.zero_le _),
    sinkInv_resetBlock cfg rfl (Nat.zero_le _)⟩

/-! ### The host's actions on the collaborators -/

/-- In FIN_SENT the source is ended and consumed, so neither a write nor an end changes it; in the
other states the invariant does not look at the source. -/
theorem SndInv.of_source {s : State} (h : SndInv s) {src : Source}
    (final : s.source = ⟨[], true⟩ → src = ⟨[], true⟩) : SndInv { s with source := src } := by
  have phase := h.phase
  refine h.of_phase (st := s.sndState) ?_
  unfold phaseInv at phase ⊢
  cases hs : s.sndState with
  | closed => simpa only [hs] using phase
  | synSent => simpa only [hs] using phase
  | synAcked => simpa only [hs] using phase
  | finSent =>
    simp only [hs] at phase ⊢
    exact ⟨phase.1, final phase.2⟩

theorem Inv.of_source {s : State} (h : Inv s) {src : Source}
    (final : s.source = ⟨[], true⟩ → src = ⟨[], true⟩) : Inv { s with source := src } where
  host := ⟨h.host.legal, h.host.sinkFits⟩
  ra := h.ra.of_same_reassembler rfl rfl
  snd := h.snd.of_source final

/-- A read raises the acceptance limit (41_reassembler.md R94). -/
theorem RaInv.of_read {s : State} (h : RaInv s) {n : Nat} (le : n ≤ s.sink.buffered) :
    RaInv { s with sink := { s.sink with readCount := s.sink.readCount + n } } where
  windowWf := h.windowWf
  slotZero := h.slotZero
  belowLimit := by
    intro c hc
    have := h.belowLimit c hc
    simp only [limitOf, Sink.bytes] at *
    omega
  belowTop := h.belowTop
  unasm := h.unasm
  written := h.written
  readLe := by
    have := h.readLe
    simp only [Sink.buffered, Sink.bytes] at *
    omega
  bufferedLe := by
    intro pos
    have := h.bufferedLe pos
    simp only [Sink.buffered, Sink.bytes] at *
    omega
  trace := h.trace
  endSettled := h.endSettled

theorem SinkInv.of_read {s : State} (h : SinkInv s) {n : Nat} (le : n ≤ s.sink.buffered) :
    SinkInv { s with sink := { s.sink with readCount := s.sink.readCount + n } } where
  written := h.written
  bufferedLe := by
    have := h.bufferedLe
    simp only [Sink.buffered, Sink.bytes] at *
    omega
  limit := by
    have := h.limit
    have := h.bufferedLe
    have := h.written
    simp only [limitOf, Sink.buffered, Sink.bytes] at *
    omega
  trace := h.trace

/-! ### Every step -/

/-- An event the host may let happen keeps the invariant. -/
theorem hostEvent_keeps_inv {e : HostEvent} {s t : State} (h : Inv s)
    (happens : hostEvent e s = .next t) : Inv t := by
  cases e with
  | command c => exact runCommand_keeps_inv h happens
  | srcWrite bytes =>
    obtain ⟨duty, rfl⟩ := hostWrite_cases happens
    exact h.of_source fun final => by simp [final, duty (by rw [final])]
  | srcEnd =>
    obtain rfl : _ = t := by simpa [hostEvent, hostEnd] using happens
    exact h.of_source fun final => by simp [final]
  | sinkRead n =>
    obtain ⟨le, rfl⟩ := hostRead_cases happens
    exact ⟨h.host.of_eq rfl rfl rfl, h.ra.of_read le, h.snd.of_same_sender rfl rfl rfl⟩
  | reset cfg presented =>
    obtain ⟨legal, fits, rfl⟩ := takeReset_cases happens
    exact inv_resetBlock legal fits h.ra.readLe
  | boot cfg sinkCapacity initial =>
    obtain ⟨legal, fits, rfl⟩ := takeReset_cases happens
    exact inv_resetBlock legal fits (Nat.zero_le _)

/-- An event the host may let happen keeps the sink's invariant; a reset needs a fresh sink
(70_reset_and_hazards.md R166). -/
theorem hostEvent_keeps_sinkInv {e : HostEvent} {s t : State} (h : RaInv s) (hk : SinkInv s)
    (fresh : ∀ cfg presented, e = .reset cfg presented → s.sink.events = [])
    (happens : hostEvent e s = .next t) : SinkInv t := by
  cases e with
  | command c => exact runCommand_keeps_sinkInv h hk happens
  | srcWrite bytes =>
    obtain ⟨_, rfl⟩ := hostWrite_cases happens
    exact hk.of_same_reassembler rfl rfl
  | srcEnd =>
    obtain rfl : _ = t := by simpa [hostEvent, hostEnd] using happens
    exact hk.of_same_reassembler rfl rfl
  | sinkRead n =>
    obtain ⟨le, rfl⟩ := hostRead_cases happens
    exact hk.of_read le
  | reset cfg presented =>
    obtain ⟨_, _, rfl⟩ := takeReset_cases happens
    exact sinkInv_resetBlock cfg (fresh cfg presented rfl) h.readLe
  | boot cfg sinkCapacity initial =>
    obtain ⟨_, _, rfl⟩ := takeReset_cases happens
    exact sinkInv_resetBlock cfg rfl (Nat.zero_le _)

/-- A step is idle and changes nothing, or lets the host's next event happen
(60_exceptions.md R161). -/
theorem step_cases {s t : State} (h : step s = .next t) :
    t = s ∨ ∃ e rest, s.host = e :: rest ∧ hostEvent e { s with host := rest } = .next t := by
  cases host : s.host with
  | nil =>
    simp only [step, hostStep, host] at h
    exact .inl (by simpa using h.symm)
  | cons e rest => exact .inr ⟨e, rest, rfl, (step_of_host host).symm.trans h⟩

/-- Settles O13: an idle step changes nothing, another one lets one event happen. -/
theorem everyStepKeepsInvariant : Obligations.EveryStepKeepsInvariant := by
  refine ⟨?inv, ?sinkInv⟩
  case inv =>
    intro s t h run
    obtain rfl | ⟨e, rest, _, happens⟩ := step_cases run
    · exact h
    · refine hostEvent_keeps_inv ?_ happens
      exact h.of_same_block rfl rfl rfl rfl
  case sinkInv =>
    intro s t h hk fresh run
    obtain rfl | ⟨e, rest, host, happens⟩ := step_cases run
    · exact hk
    · refine hostEvent_keeps_sinkInv ?_ ?_ ?_ happens
      · exact h.ra.of_same_reassembler rfl rfl
      · exact hk.of_same_reassembler rfl rfl
      · rintro cfg presented rfl
        exact fresh cfg presented rest host

/-- Settles O5: the word is presented as a command, whose word the decoder reads. -/
theorem presentedWordRuns : Obligations.PresentedWordRuns := by
  intro s nbits w i h word
  have decoded : decode (BitVec.ofNat 16 (w % 2 ^ nbits)) = .ok i := by
    unfold decodeTableWord at word
    cases hd : decode (BitVec.ofNat 16 (w % 2 ^ nbits)) with
    | ok j => simpa [hd, Except.toOption] using word
    | error e => simp [hd, Except.toOption] at word
  rw [step_of_host (show (s.withFetchWord nbits w).host = _ from rfl)]
  exact runCommand_of_decode_ok (h.of_eq rfl rfl rfl) decoded

/-- Settles O8: the step is the reset transition. -/
theorem resetLeavesListedState : Obligations.ResetLeavesListedState := by
  intro s cfg presented rest host legal fits
  have reset : step s = .next (State.resetBlock { s with host := rest } cfg) :=
    (step_of_host host).trans (takeReset_of_legal legal fits)
  exact ⟨_, reset, rfl, fun _ => rfl, rfl, rfl, rfl, rfl, rfl, rfl, rfl, rfl, rfl, rfl, rfl, rfl,
    rfl, rfl, rfl, rfl, rfl, rfl, rfl⟩

/-- Settles O11: each action's duty is kept, so it happens. -/
theorem hostActsOnCollaborators : Obligations.HostActsOnCollaborators := by
  refine ⟨?write, ?latch, ?read⟩
  case write =>
    exact fun _ bytes _ host opened => (step_of_host host).trans (hostWrite_of_open bytes opened)
  case latch => exact fun _ _ host => step_of_host host
  case read => exact fun _ _ _ host le => (step_of_host host).trans (hostRead_of_le le)

/-- Settles O12: both are states that a reset leaves. -/
theorem resetStateIsGood : Obligations.ResetStateIsGood :=
  ⟨fun _ _ _ legal fits => inv_resetWith legal fits, inv_resetWith (by decide) (by decide)⟩

end Sys2Proof.Machine
end

section
/-! The register map (10_state.md R47): RDREG of a listed number reads its register, and what the
packed and the narrow registers read as numbers. -/

namespace Sys2Proof.Machine

open Sys2Proof

theorem readsAs_of_regOfNumber {regno : BitVec 8} {r : Reg} (h : regOfNumber? regno = some r)
    {s : State} {v : Word} (hv : s.readReg r = v) : readsAs s regno v := by
  show execRdreg regno s = _
  simp only [execRdreg, h, hv, respondOk_eq]

theorem regOfNumber_of_reserved {regno : BitVec 8} (h : regno ∉ definedRegnos) :
    regOfNumber? regno = none := by
  simp only [definedRegnos, List.mem_cons, List.not_mem_nil, or_false, not_or] at h
  simp only [regOfNumber?, h, if_false]

theorem flagWord_eq_threeFlags (b0 b1 b2 : Bool) : flagWord b0 b1 b2 = threeFlags b0 b1 b2 := by
  revert b0 b1 b2
  decide

theorem zeroExtend_wire (x : Wire) : x.zeroExtend 64 = BitVec.ofNat 64 x.toNat := by
  apply BitVec.eq_of_toNat_eq
  simp

theorem raStatus_eq (s : State) :
    s.raStatus = threeFlags (decide (s.raUnasm = 0)) s.raEofValid s.raEnded :=
  flagWord_eq_threeFlags _ _ _

theorem sndStatus_eq (s : State) :
    s.sndStatus = threeFlags s.tmrRunning (decide (s.sndState = .finSent ∧ s.sndBif = 0))
      (decide (s.cfg.maxRetx.toNat < s.tmrConsec.toNat)) := by
  rw [State.sndStatus, flagWord_eq_threeFlags, State.finAcked, State.retxExceeded,
    Bool.decide_and]
  rfl

/-- Sequence number 0 encodes to the initial sequence number (40_codec.md R86). -/
theorem wrap_zero (isn : Wire) : wrap 0 isn = isn := by
  apply BitVec.eq_of_toNat_eq
  simpa [wrap, add32] using Nat.mod_eq_of_lt isn.isLt

theorem sndNextWire_resetWith (p : Params) (cfg : Config) (cap : Nat) :
    wrap (State.resetWith p cfg cap).sndNext (State.resetWith p cfg cap).cfg.isn = cfg.isn :=
  wrap_zero cfg.isn

/-- The window after reset fits the 16 bits of a legal block. -/
theorem sndWindowField_resetWith {p : Params} {cfg : Config} {cap : Nat}
    (legal : configLegal p cfg = true) :
    BitVec.ofNat 64 ((State.resetWith p cfg cap).sndWindow.toNat %
      2 ^ (State.resetWith p cfg cap).params.winBits) = 1 := by
  rw [show (State.resetWith p cfg cap).params.winBits = 16 from winBits_of_configLegal legal]
  rfl

/-- Settles O59: the values right after reset are the listed contents of the reset state. -/
theorem registerMap : Obligations.RegisterMap := by
  refine (fun listed => ⟨listed, ?reserved, ?afterReset⟩) ?contents
  case contents =>
    intro s
    refine ⟨readsAs_of_regOfNumber (r := .cfgCapacity) rfl rfl,
      readsAs_of_regOfNumber (r := .cfgInitRto) rfl rfl,
      readsAs_of_regOfNumber (r := .cfgMaxPayload) rfl rfl,
      readsAs_of_regOfNumber (r := .cfgMaxRetx) rfl rfl,
      readsAs_of_regOfNumber (r := .cfgIsn) rfl (zeroExtend_wire _),
      readsAs_of_regOfNumber (r := .cfgQDepth) rfl ?_,
      readsAs_of_regOfNumber (r := .raBase) rfl rfl,
      readsAs_of_regOfNumber (r := .raUnasm) rfl rfl,
      readsAs_of_regOfNumber (r := .raStatus) rfl (raStatus_eq s),
      readsAs_of_regOfNumber (r := .raEofIndex) rfl rfl,
      readsAs_of_regOfNumber (r := .sndState) rfl ?_,
      readsAs_of_regOfNumber (r := .sndNext) rfl rfl,
      readsAs_of_regOfNumber (r := .sndNextWire) rfl (zeroExtend_wire _),
      readsAs_of_regOfNumber (r := .sndBif) rfl rfl,
      readsAs_of_regOfNumber (r := .sndWindow) rfl rfl,
      readsAs_of_regOfNumber (r := .sndQlen) rfl rfl,
      readsAs_of_regOfNumber (r := .sndStatus) rfl (sndStatus_eq s),
      readsAs_of_regOfNumber (r := .tmrRto) rfl rfl,
      readsAs_of_regOfNumber (r := .tmrElapsed) rfl rfl,
      readsAs_of_regOfNumber (r := .tmrConsec) rfl rfl⟩
    · simp only [State.readReg]
      cases s.params.qDepth <;> rfl
    · simp only [State.readReg]
      cases s.sndState <;> rfl
  case reserved =>
    intro s regno h
    show execRdreg regno s = _
    simp only [execRdreg, regOfNumber_of_reserved h, raiseIllegal_eq]
  case afterReset =>
    intro p cfg cap legal
    have contents := listed (State.resetWith p cfg cap)
    rw [sndNextWire_resetWith, sndWindowField_resetWith legal] at contents
    exact contents

end Sys2Proof.Machine
end

section
/-! What `fill()` sends (20_memory.md R56, R62, 42_sender.md R117, R119): the entries it queues, in
order, are the segments it emits, and their payloads are what it takes from the source. -/

namespace Sys2Proof.Machine

open Sys2Proof

/-- From `s` to `t` exactly the entries `sent` were queued and emitted as new segments, each within
the payload limit, and their payloads were taken from the front of the source. -/
structure SentInOrder (s t : State) (sent : List Entry) : Prop where
  cfg : t.cfg = s.cfg
  queue : t.queue = s.queue ++ sent
  segOut : t.segOut = s.segOut ++ sent.map (recordOf .new s.cfg.isn)
  source : s.source.bytes = (sent.map Entry.payload).flatten ++ t.source.bytes
  payloadLe : ∀ e ∈ sent, e.payload.length ≤ s.cfg.maxPayload.toNat

theorem SentInOrder.refl (s : State) : SentInOrder s s [] where
  cfg := rfl
  queue := (List.append_nil _).symm
  segOut := (List.append_nil _).symm
  source := rfl
  payloadLe := List.forall_mem_nil _

theorem SentInOrder.trans {s t u : State} {first later : List Entry}
    (hst : SentInOrder s t first) (htu : SentInOrder t u later) :
    SentInOrder s u (first ++ later) where
  cfg := htu.cfg.trans hst.cfg
  queue := by rw [htu.queue, hst.queue, List.append_assoc]
  segOut := by rw [htu.segOut, hst.segOut, hst.cfg, List.map_append, List.append_assoc]
  source := by
    rw [hst.source, htu.source, List.map_append, List.flatten_append, List.append_assoc]
  payloadLe := List.forall_mem_append.2 ⟨hst.payloadLe, hst.cfg ▸ htu.payloadLe⟩

/-- A segment without payload, emitted into any sender state, takes nothing from the source. -/
theorem sentInOrder_emitNew_nil (s : State) (syn fin : Bool) (st : SndState) :
    SentInOrder s { s.emitNew syn fin [] with sndState := st } [⟨s.sndNext, syn, fin, []⟩] := by
  rw [emitNew_eq]
  exact ⟨rfl, rfl, rfl, rfl, List.forall_mem_singleton.2 (Nat.zero_le _)⟩

/-- One turn of the loop sends one entry: the bytes read are its payload, the rest stays. -/
theorem sentInOrder_sendSegment {s : State} {n : Nat} {fin : Bool}
    (due : s.nextSegment = some (n, fin)) :
    SentInOrder s (s.sendSegment n fin) [⟨s.sndNext, false, fin, s.srcFront n⟩] := by
  obtain ⟨avail, _, payloadLe, _⟩ := nextSegment_bounds due
  have taken : s.srcFront n ++ (s.srcConsume n).source.bytes = s.source.bytes :=
    List.take_append_drop n s.source.bytes
  rw [sendSegment_eq, emitNew_eq]
  refine ⟨rfl, rfl, rfl, ?source, ?payloadLe⟩
  case source => simpa using taken.symm
  case payloadLe => exact List.forall_mem_singleton.2 ((srcFront_length avail).trans_le payloadLe)

/-- `fill()` sends in order, in every state of the sender. -/
theorem fill_sentInOrder (s : State) : ∃ sent, SentInOrder s s.fill sent := by
  unfold State.fill
  split
  · exact ⟨_, sentInOrder_emitNew_nil s true false .synSent⟩
  · exact ⟨[], .refl s⟩
  · exact ⟨[], .refl s⟩
  · next acked =>
    refine fillLoop_induct (P := fun t => ∃ sent, SentInOrder s t sent) ?turn _ s acked
      ⟨[], .refl s⟩
    intro t n fin ⟨sent, sofar⟩ _ due
    exact ⟨_, sofar.trans (sentInOrder_sendSegment due)⟩

/-- Settles O42: the answer of SND_FILL leaves what `fill()` sent as it is. -/
theorem fillSendsSourceInOrder : Obligations.FillSendsSourceInOrder := by
  intro s t filled
  obtain ⟨sent, order⟩ := fill_sentInOrder s
  have answered : s.fill.answered .ok 0 = t := Host.Outcome.next.inj filled
  subst answered
  exact ⟨sent, order.queue, order.segOut, order.source, order.payloadLe⟩

end Sys2Proof.Machine
end

section
/-! The command word (30_encoding.md R72 to R76, R81 to R83): it is its two bytes, the opcode
selects one of the three formats, and each format reads the modifier byte back. -/

namespace Sys2Proof.Machine

open Sys2Proof

/-! ### The two bytes of a word -/

/-- The opcode byte and the modifier byte make up the whole word. -/
theorem append_bytes (w : CmdWord) : w.extractLsb' 8 8 ++ w.extractLsb' 0 8 = w :=
  (BitVec.extractLsb'_append_extractLsb'_eq_extractLsb' rfl).trans BitVec.extractLsb'_eq_self

theorem opcodeByte_encode (i : Instr) : (encode i).extractLsb' 0 8 = opcode i :=
  (Laws.bytes_of_append _ _).1

theorem modifierByte_encode (i : Instr) : (encode i).extractLsb' 8 8 = modifierBits i :=
  (Laws.bytes_of_append _ _).2

/-- A word with the two bytes of a command is the command's word. -/
theorem encode_eq_of_bytes {w : CmdWord} {i : Instr} (op : w.extractLsb' 0 8 = opcode i)
    (modifier : w.extractLsb' 8 8 = modifierBits i) : encode i = w := by
  rw [encode, ← op, ← modifier, append_bytes]

/-! ### The opcode selects the format -/

/-- The commands of format N (30_encoding.md R73, R76). -/
def plainCommands : List Instr :=
  [.nop, .sncWrap, .sncUnwrap, .sndFill, .sndAck, .sndTick, .sndEmpty]

theorem map_opcode_plainCommands : plainCommands.map opcode = plainOpcodes := rfl

theorem wellFormed_of_plain : ∀ i ∈ plainCommands, i.wellFormed = true := by decide

theorem modifierBits_of_plain : ∀ i ∈ plainCommands, modifierBits i = 0 := by decide

theorem decode_of_plainOpcode {w : CmdWord} {i : Instr} (plain : i ∈ plainCommands)
    (op : w.extractLsb' 0 8 = opcode i) : decode w = decodePlain (w.extractLsb' 8 8) i := by
  simp only [plainCommands, List.mem_cons, List.not_mem_nil, or_false] at plain
  obtain rfl | rfl | rfl | rfl | rfl | rfl | rfl := plain <;> simp [decode, op, opcode]

theorem decode_of_insertOpcode {w : CmdWord} (op : w.extractLsb' 0 8 = 0x10) :
    decode w = decodeInsert (w.extractLsb' 8 8) := by
  simp [decode, op]

theorem decode_of_registerOpcode {w : CmdWord} (op : w.extractLsb' 0 8 = 0x30) :
    decode w = decodeRegister (w.extractLsb' 8 8) := by
  simp [decode, op]

theorem decode_of_unlistedOpcode {w : CmdWord} (plain : w.extractLsb' 0 8 ∉ plainOpcodes)
    (insert : w.extractLsb' 0 8 ≠ 0x10) (register : w.extractLsb' 0 8 ≠ 0x30) :
    decode w = .error (.reservedOpcode (w.extractLsb' 0 8)) := by
  simp only [plainOpcodes, List.mem_cons, List.not_mem_nil, or_false, not_or] at plain
  simp only [decode, plain, insert, register, if_false]

/-- The format that the opcode of a word selects, and so how the word is decoded. -/
inductive WordFormat (w : CmdWord) : Prop
  | plain (i : Instr) (plain : i ∈ plainCommands) (op : w.extractLsb' 0 8 = opcode i)
      (decoded : decode w = decodePlain (w.extractLsb' 8 8) i)
  | insert (op : w.extractLsb' 0 8 = 0x10)
      (decoded : decode w = decodeInsert (w.extractLsb' 8 8))
  | register (op : w.extractLsb' 0 8 = 0x30)
      (decoded : decode w = decodeRegister (w.extractLsb' 8 8))
  | unlisted (plain : w.extractLsb' 0 8 ∉ plainOpcodes) (insert : w.extractLsb' 0 8 ≠ 0x10)
      (register : w.extractLsb' 0 8 ≠ 0x30)
      (decoded : decode w = .error (.reservedOpcode (w.extractLsb' 0 8)))

theorem wordFormat (w : CmdWord) : WordFormat w := by
  by_cases plain : w.extractLsb' 0 8 ∈ plainOpcodes
  · rw [← map_opcode_plainCommands] at plain
    obtain ⟨i, mem, op⟩ := List.mem_map.1 plain
    exact .plain i mem op.symm (decode_of_plainOpcode mem op.symm)
  by_cases insert : w.extractLsb' 0 8 = 0x10
  · exact .insert insert (decode_of_insertOpcode insert)
  by_cases register : w.extractLsb' 0 8 = 0x30
  · exact .register register (decode_of_registerOpcode register)
  exact .unlisted plain insert register (decode_of_unlistedOpcode plain insert register)

/-! ### What each format accepts and rejects -/

theorem decodePlain_eq_ok_iff {m : BitVec 8} {i j : Instr} :
    decodePlain m i = .ok j ↔ m = 0 ∧ i = j := by
  unfold decodePlain
  split <;> simp_all

theorem decodePlain_rejects_iff {m : BitVec 8} {i : Instr} :
    (∃ e, decodePlain m i = .error e) ↔ m ≠ 0 := by
  unfold decodePlain
  split <;> simp_all

/-- CMD[15:9] is 0 exactly when the modifier byte is LAST, zero-extended (30_encoding.md R74). -/
theorem eq_zeroExtend_last_iff (m : BitVec 8) (last : Bool) :
    m.extractLsb' 1 7 = 0 ∧ m.getLsbD 0 = last ↔
      m = BitVec.zeroExtend 8 (BitVec.ofBool last) := by
  constructor
  · rintro ⟨high, rfl⟩
    ext k hk
    cases k with
    | zero => simp
    | succ k =>
      have bit := congrArg (·.getLsbD k) high
      simpa [show k < 7 by omega, Nat.add_comm 1 k, BitVec.getLsbD_eq_getElem hk] using bit
  · rintro rfl
    cases last <;> decide

theorem decodeInsert_eq_ok_iff {m : BitVec 8} {i : Instr} :
    decodeInsert m = .ok i ↔ ∃ last, m = modifierBits (.raInsert last) ∧ .raInsert last = i := by
  simp only [modifierBits, ← eq_zeroExtend_last_iff]
  unfold decodeInsert
  split <;> simp_all

theorem decodeInsert_rejects_iff {m : BitVec 8} :
    (∃ e, decodeInsert m = .error e) ↔ m.extractLsb' 1 7 ≠ 0 := by
  unfold decodeInsert
  split <;> simp_all

/-- The register map lists exactly the defined numbers (10_state.md R47). -/
theorem regOfNumber_eq_none_iff {r : BitVec 8} : regOfNumber? r = none ↔ r ∉ definedRegnos := by
  refine ⟨fun none mem => ?_, regOfNumber_of_reserved⟩
  have listed : ∀ r ∈ definedRegnos, (regOfNumber? r).isSome = true := by
    simp [definedRegnos, regOfNumber?]
  simpa [none] using listed r mem

theorem decodeRegister_eq_ok_iff {r : BitVec 8} {i : Instr} :
    decodeRegister r = .ok i ↔ r ∈ definedRegnos ∧ .rdreg r = i := by
  have listed := (regOfNumber_eq_none_iff (r := r))
  unfold decodeRegister
  split <;> simp_all

theorem decodeRegister_rejects_iff {r : BitVec 8} :
    (∃ e, decodeRegister r = .error e) ↔ r ∉ definedRegnos := by
  rw [← regOfNumber_eq_none_iff]
  unfold decodeRegister
  split <;> simp_all

/-! ### The decoder and the encoder -/

theorem decode_encode {i : Instr} (wf : i.wellFormed = true) : decode (encode i) = .ok i := by
  have op := opcodeByte_encode i
  have modifier := modifierByte_encode i
  by_cases plain : i ∈ plainCommands
  · rw [decode_of_plainOpcode plain op, modifier]
    exact decodePlain_eq_ok_iff.2 ⟨modifierBits_of_plain i plain, rfl⟩
  cases i with
  | raInsert last =>
    rw [decode_of_insertOpcode op, modifier]
    exact decodeInsert_eq_ok_iff.2 ⟨last, rfl, rfl⟩
  | rdreg r =>
    rw [decode_of_registerOpcode op, modifier]
    exact decodeRegister_eq_ok_iff.2 ⟨List.contains_iff_mem.1 wf, rfl⟩
  | _ => exact absurd (by decide) plain

theorem wellFormed_and_encode_of_decode {w : CmdWord} {i : Instr} (h : decode w = .ok i) :
    i.wellFormed = true ∧ encode i = w := by
  cases wordFormat w with
  | plain j plain op decoded =>
    obtain ⟨modifier, rfl⟩ := decodePlain_eq_ok_iff.1 (decoded.symm.trans h)
    exact ⟨wellFormed_of_plain j plain,
      encode_eq_of_bytes op (modifier.trans (modifierBits_of_plain j plain).symm)⟩
  | insert op decoded =>
    obtain ⟨last, modifier, rfl⟩ := decodeInsert_eq_ok_iff.1 (decoded.symm.trans h)
    exact ⟨rfl, encode_eq_of_bytes op modifier⟩
  | register op decoded =>
    obtain ⟨mem, rfl⟩ := decodeRegister_eq_ok_iff.1 (decoded.symm.trans h)
    exact ⟨List.contains_iff_mem.2 mem, encode_eq_of_bytes op rfl⟩
  | unlisted _ _ _ decoded => cases decoded.symm.trans h

/-- Settles O1: encoding gives the two bytes that the opcode's format reads back. -/
theorem decodeInvertsEncode : Obligations.DecodeInvertsEncode :=
  ⟨fun _ => decode_encode, fun _ _ => wellFormed_and_encode_of_decode⟩

/-- CMD[15:9] is the modifier byte without its bit 0. -/
theorem extractLsb_nine_seven (w : CmdWord) :
    w.extractLsb' 9 7 = (w.extractLsb' 8 8).extractLsb' 1 7 := by
  ext k hk
  simp [← Nat.add_assoc, show 1 + k < 8 by omega]

/-- Settles O3: each format rejects its own reserved words, and the formats' opcodes differ. -/
theorem decoderRejectsReservedWords : Obligations.DecoderRejectsReservedWords := by
  intro w
  simp only [reservedWord, extractLsb_nine_seven]
  cases wordFormat w with
  | plain i plain op decoded =>
    have listed : w.extractLsb' 0 8 ∈ plainOpcodes := by
      rw [op, ← map_opcode_plainCommands]; exact List.mem_map_of_mem plain
    have insert : w.extractLsb' 0 8 ≠ 0x10 := fun h => absurd (h ▸ listed) (by decide)
    have register : w.extractLsb' 0 8 ≠ 0x30 := fun h => absurd (h ▸ listed) (by decide)
    rw [decoded, decodePlain_rejects_iff]
    tauto
  | insert op decoded =>
    rw [decoded, decodeInsert_rejects_iff]
    simp [op, plainOpcodes]
  | register op decoded =>
    rw [decoded, decodeRegister_rejects_iff]
    simp [op, plainOpcodes]
  | unlisted plain insert register decoded =>
    exact ⟨fun _ => .inl ⟨plain, insert, register⟩, fun _ => ⟨_, decoded⟩⟩

/-! ### The words in hexadecimal -/

/-- A concatenation of bytes, written with a shift (30_encoding.md R83). -/
theorem append_eq_shiftLeft_or (hi lo : BitVec 8) :
    (hi ++ lo : CmdWord) = (hi.zeroExtend 16 <<< 8) ||| lo.zeroExtend 16 := by
  rw [BitVec.append_def, BitVec.shiftLeftZeroExtend_eq]
  rfl

theorem decode_of_encode_eq {w : CmdWord} {i : Instr} (wf : i.wellFormed = true)
    (h : encode i = w) : decode w = .ok i :=
  h ▸ decode_encode wf

/-- Settles O2: the encoder is evaluated on each command, and the decoder inverts it. -/
theorem commandWordsInHexadecimal : Obligations.CommandWordsInHexadecimal :=
  ⟨decode_of_encode_eq rfl rfl, rfl, decode_of_encode_eq rfl rfl, rfl,
    decode_of_encode_eq rfl rfl, rfl, decode_of_encode_eq rfl rfl, rfl,
    decode_of_encode_eq rfl rfl, rfl, decode_of_encode_eq rfl rfl, rfl,
    decode_of_encode_eq rfl rfl, rfl, decode_of_encode_eq rfl rfl, rfl,
    decode_of_encode_eq rfl rfl, rfl, decode_of_encode_eq rfl rfl,
    fun r => append_eq_shiftLeft_or r 0x30⟩

/-! ### The command transaction -/

/-- Settles O4: the host's duties are kept, so the decoded command runs on the sampled ports. -/
theorem stepRunsDecodedCommand : Obligations.StepRunsDecodedCommand := by
  intro s c rest i host duties decoded
  exact (step_of_host host).trans (runCommand_of_decode_ok (duties.of_eq rfl rfl rfl) decoded)

end Sys2Proof.Machine
end

section
/-! The operand checks (30_encoding.md R79, R80): which operands each fails for, and that a command
whose check fails is answered ILLEGAL. -/

namespace Sys2Proof.Machine

open Sys2Proof

/-! ### When a check fails -/

theorem fitsIn_eq_false_iff (n : Nat) (x : Word) : fitsIn n x = false ↔ 2 ^ n ≤ x.toNat := by
  rw [← Bool.not_eq_true, fitsIn_iff, Nat.not_lt]

theorem dataFits_eq_false_iff (p : Params) (len : Nat) :
    dataFits p len = false ↔ ∃ m, p.dataMax = some m ∧ m < len := by
  rw [← Bool.not_eq_true, dataFits_iff]
  simp

theorem unwrapOperandsOk_eq_false_iff (c : Command) :
    unwrapOperandsOk c = false ↔ 2 ^ 32 ≤ c.opa.toNat ∨ 2 ^ 32 ≤ c.opb.toNat := by
  rw [unwrapOperandsOk, Bool.and_eq_false_iff, fitsIn_eq_false_iff, fitsIn_eq_false_iff]

theorem ackOperandsOk_eq_false_iff (p : Params) (c : Command) :
    ackOperandsOk p c = false ↔ 2 ^ 32 ≤ c.opa.toNat ∨ 2 ^ p.winBits ≤ c.opb.toNat := by
  rw [ackOperandsOk, Bool.and_eq_false_iff, fitsIn_eq_false_iff, fitsIn_eq_false_iff]

theorem insertOperandsOk_eq_false_iff (p : Params) (c : Command) :
    insertOperandsOk p c = false ↔
      (∃ m, p.dataMax = some m ∧ m < c.data.length) ∨ maxWord < c.opa.toNat + c.data.length := by
  rw [insertOperandsOk, Bool.and_eq_false_iff, dataFits_eq_false_iff, decide_eq_false_iff_not,
    Nat.not_le]

/-! ### The commands whose check fails -/

theorem execSncWrap_of_badOperands {s : State} (bad : wrapOperandsOk s.port = false) :
    execSncWrap s = raiseIllegal s := by
  simp only [execSncWrap, bad, Bool.false_eq_true, if_false]

theorem execSncUnwrap_of_badOperands {s : State} (bad : unwrapOperandsOk s.port = false) :
    execSncUnwrap s = raiseIllegal s := by
  simp only [execSncUnwrap, bad, Bool.false_eq_true, if_false]

theorem execSndAck_of_badOperands {s : State} (bad : ackOperandsOk s.params s.port = false) :
    execSndAck s = raiseIllegal s := by
  simp only [execSndAck, bad, Bool.false_eq_true, if_false]

theorem execRaInsert_of_badOperands {last : Bool} {s : State}
    (bad : insertOperandsOk s.params s.port = false) : execRaInsert last s = raiseIllegal s := by
  simp only [execRaInsert, bad, Bool.false_eq_true, if_false]

/-- Settles O21: each command's width check fails, in whichever of its ports is too wide. -/
theorem tooWideOperandsIllegal : Obligations.TooWideOperandsIllegal := by
  refine ⟨?wrap, ?unwrap, ?ack⟩
  case wrap =>
    exact fun s wide => execSncWrap_of_badOperands ((fitsIn_eq_false_iff 32 s.port.opb).2 wide)
  case unwrap =>
    exact fun s wide => execSncUnwrap_of_badOperands ((unwrapOperandsOk_eq_false_iff s.port).2 wide)
  case ack =>
    exact fun s wide =>
      execSndAck_of_badOperands ((ackOperandsOk_eq_false_iff s.params s.port).2 wide)

/-- Settles O22: one of the two DATA checks fails. -/
theorem insertDataChecks : Obligations.InsertDataChecks := by
  intro last s tooLong
  exact execRaInsert_of_badOperands ((insertOperandsOk_eq_false_iff s.params s.port).2 tooLong)

end Sys2Proof.Machine
end

section
/-! The codec (40_codec.md R86 to R92): the computation of `unwrap` finds exactly the nearest
candidates of R87, from which the tie rule and the laws follow, and the two codec commands. -/

namespace Sys2Proof.Machine

open Sys2Proof

/-! ### wrap -/

theorem toNat_wrap (a : Word) (isn : Wire) :
    (wrap a isn).toNat = (isn.toNat + a.toNat % 2 ^ 32) % 2 ^ 32 := by
  rw [wrap, add32, BitVec.toNat_ofNat, Nat.mod_mod]

/-- Settles O15: the law of `toNat` for `wrap`. -/
theorem wrapAddsModulo : Obligations.WrapAddsModulo := toNat_wrap

/-- The candidate set of R87 is the set of absolute values that encode to the wire value. -/
theorem candidate_iff_wrap_eq {w isn : Wire} {a : Word} :
    candidate w isn a.toNat ↔ wrap a isn = w := by
  have hw := w.isLt
  have hisn := isn.isLt
  have ha := a.isLt
  rw [candidate, ← BitVec.toNat_inj, toNat_wrap, BitVec.toNat_sub]
  omega

theorem wrap_add_period (a : Word) (isn : Wire) : wrap (a + 2 ^ 32) isn = wrap a isn := by
  have period : ((2 : Word) ^ 32).toNat = 2 ^ 32 := rfl
  apply BitVec.eq_of_toNat_eq
  rw [toNat_wrap, toNat_wrap, BitVec.toNat_add, period]
  omega

theorem wrap_eq_add32_wrap_zero (a : Word) (isn : Wire) :
    wrap a isn = add32 (wrap a 0).toNat isn.toNat := by
  have zero : (0 : Wire).toNat = 0 := rfl
  apply BitVec.eq_of_toNat_eq
  rw [add32, BitVec.toNat_ofNat, toNat_wrap, toNat_wrap, zero]
  omega

/-! ### The candidates -/

theorem candidate_of_mem_unwrapCandidates {w isn : Wire} {c : Word} {x : Nat}
    (listed : x ∈ unwrapCandidates w isn c) : candidate w isn x := by
  obtain ⟨inRange, encodes, -, -⟩ := mem_unwrapCandidates.1 listed
  exact ⟨inRange, encodes⟩

/-- Every run of 2^32 absolute values holds a candidate. -/
theorem exists_candidate_ge (w isn : Wire) {b : Nat} (hb : b + 2 ^ 32 ≤ 2 ^ 64) :
    ∃ y, candidate w isn y ∧ b ≤ y ∧ y < b + 2 ^ 32 := by
  have hoff := (w - isn).isLt
  refine ⟨b + ((w - isn).toNat + 2 ^ 32 - b % 2 ^ 32) % 2 ^ 32, ⟨?_, ?_⟩, ?_, ?_⟩ <;> omega

/-- The candidate in the checkpoint's own block is within 2^32 of it, and every candidate that R88
does not list is farther away. -/
theorem exists_listed_nearer {w isn : Wire} {c : Word} {y : Nat} (hy : candidate w isn y)
    (unlisted : y ∉ unwrapCandidates w isn c) :
    ∃ x ∈ unwrapCandidates w isn c, distance x c.toNat < distance y c.toNat := by
  have hc := c.isLt
  obtain ⟨inRange, encodes⟩ := hy
  obtain ⟨m, ⟨mInRange, mEncodes⟩, fromBlock, toBlock⟩ :=
    exists_candidate_ge w isn (b := c.toNat / 2 ^ 32 * 2 ^ 32) (by omega)
  rw [mem_unwrapCandidates] at unlisted
  refine ⟨m, mem_unwrapCandidates.2 ⟨mInRange, mEncodes, ?_, ?_⟩, ?_⟩
  · omega
  · omega
  · simp only [distance]
    omega

/-- The nearest elements of R88's list are the nearest candidates of R87. -/
theorem mem_nearest_unwrapCandidates {w isn : Wire} {c : Word} {x : Nat} :
    x ∈ nearest (unwrapCandidates w isn c) c.toNat ↔ nearestCandidate w isn c x := by
  rw [mem_nearest_iff (unwrapCandidates_near w isn c)]
  constructor
  · rintro ⟨listed, least⟩
    refine ⟨candidate_of_mem_unwrapCandidates listed, fun y hy => ?_⟩
    by_cases hl : y ∈ unwrapCandidates w isn c
    · exact least y hl
    · obtain ⟨m, hm, nearer⟩ := exists_listed_nearer hy hl
      exact (least m hm).trans nearer.le
  · rintro ⟨hx, least⟩
    refine ⟨by_contra fun hl => ?_, fun y hl => least y (candidate_of_mem_unwrapCandidates hl)⟩
    obtain ⟨m, hm, nearer⟩ := exists_listed_nearer hx hl
    exact nearer.not_ge (least m (candidate_of_mem_unwrapCandidates hm))

/-! ### unwrap -/

theorem unwrap_nearest (tie : UnwrapTie) (w isn : Wire) (c : Word) :
    nearestCandidate w isn c (unwrap tie w isn c).toNat :=
  mem_nearest_unwrapCandidates.1 (unwrap_spec tie w isn c).1

theorem unwrap_lower_le {w isn : Wire} {c : Word} {x : Nat} (hx : nearestCandidate w isn c x) :
    (unwrap .lower w isn c).toNat ≤ x :=
  (unwrap_spec .lower w isn c).2.1 rfl x (mem_nearest_unwrapCandidates.2 hx)

theorem le_unwrap_upper {w isn : Wire} {c : Word} {x : Nat} (hx : nearestCandidate w isn c x) :
    x ≤ (unwrap .upper w isn c).toNat :=
  (unwrap_spec .upper w isn c).2.2 rfl x (mem_nearest_unwrapCandidates.2 hx)

theorem nearestCandidate_equidistant {w isn : Wire} {c : Word} {x y : Nat}
    (hx : nearestCandidate w isn c x) (hy : nearestCandidate w isn c y) :
    distance x c.toNat = distance y c.toNat :=
  (hx.2 y hy.1).antisymm (hy.2 x hx.1)

/-- Two nearest candidates stand on the two sides of the checkpoint, so there is no third. -/
theorem nearestCandidate_eq_or_eq {w isn : Wire} {c : Word} {x y z : Nat}
    (hx : nearestCandidate w isn c x) (hy : nearestCandidate w isn c y) (hxy : x < y)
    (hz : nearestCandidate w isn c z) : z = x ∨ z = y := by
  have xy := nearestCandidate_equidistant hx hy
  have xz := nearestCandidate_equidistant hx hz
  simp only [distance] at xy xz
  omega

theorem unwrap_of_two_nearest {w isn : Wire} {c : Word} {x y : Nat}
    (hx : nearestCandidate w isn c x) (hy : nearestCandidate w isn c y) (hxy : x < y) :
    (unwrap .lower w isn c).toNat = x ∧ (unwrap .upper w isn c).toNat = y := by
  have lower := nearestCandidate_eq_or_eq hx hy hxy (unwrap_nearest .lower w isn c)
  have upper := nearestCandidate_eq_or_eq hx hy hxy (unwrap_nearest .upper w isn c)
  have lower_le := unwrap_lower_le hx
  have le_upper := le_unwrap_upper hy
  omega

/-- Settles O16: the nearest of R88's list are the nearest candidates, and the tie rule
picks between two. -/
theorem unwrapReturnsNearest : Obligations.UnwrapReturnsNearest := fun w isn c =>
  ⟨fun tie => unwrap_nearest tie w isn c, fun _ _ => unwrap_of_two_nearest⟩

/-! ### The tie rule -/

/-- The condition of R89 for an exact tie. -/
def tieAt (w isn : Wire) (c : Word) : Prop :=
  ((c.toNat : Int) - (w - isn).toNat) % 2 ^ 32 = 2 ^ 31 ∧ 2 ^ 31 ≤ c.toNat ∧
    c.toNat + 2 ^ 31 < 2 ^ 64

/-- At a tie every candidate is an odd multiple of 2^31 away from the checkpoint, so the two at
2^31 are the nearest. -/
theorem nearestCandidate_of_tieAt {w isn : Wire} {c : Word} (h : tieAt w isn c) :
    nearestCandidate w isn c (c.toNat - 2 ^ 31) ∧ nearestCandidate w isn c (c.toNat + 2 ^ 31) := by
  have hoff := (w - isn).isLt
  obtain ⟨half, below, above⟩ := h
  have atLeast : ∀ y, candidate w isn y → 2 ^ 31 ≤ distance y c.toNat := by
    rintro y ⟨-, encodes⟩
    simp only [distance]
    omega
  have nearest : ∀ x, candidate w isn x → distance x c.toNat = 2 ^ 31 →
      nearestCandidate w isn c x :=
    fun x hx hd => ⟨hx, fun y hy => hd.trans_le (atLeast y hy)⟩
  constructor
  · exact nearest _ ⟨by omega, by omega⟩ (by rw [distance]; omega)
  · exact nearest _ ⟨by omega, by omega⟩ (by rw [distance]; omega)

/-- Two nearest candidates are 2^32 apart: were they farther apart, the candidate 2^32 above the
lower one would be nearer than both. -/
theorem tieAt_of_two_nearest {w isn : Wire} {c : Word} {x y : Nat}
    (hx : nearestCandidate w isn c x) (hy : nearestCandidate w isn c y) (hxy : x < y) :
    tieAt w isn c := by
  have equal := nearestCandidate_equidistant hx hy
  obtain ⟨⟨-, xEncodes⟩, least⟩ := hx
  obtain ⟨⟨yInRange, yEncodes⟩, -⟩ := hy
  have above : candidate w isn (x + 2 ^ 32) := ⟨by omega, by omega⟩
  have aboveLeast := least _ above
  simp only [distance] at equal
  refine ⟨?_, ?_, ?_⟩ <;> omega

/-- Settles O17: two nearest candidates exist exactly at a tie, and there they are the two
at 2^31. -/
theorem unwrapTieDirection : Obligations.UnwrapTieDirection := by
  intro w isn c
  refine ⟨⟨?tie_of_two, ?two_of_tie⟩, ?direction⟩
  case tie_of_two =>
    rintro ⟨x, y, hxy, hx, hy⟩
    exact tieAt_of_two_nearest hx hy hxy
  case two_of_tie =>
    intro tie
    obtain ⟨lower, upper⟩ := nearestCandidate_of_tieAt tie
    exact ⟨_, _, by omega, lower, upper⟩
  case direction =>
    intro half below above
    obtain ⟨lower, upper⟩ := nearestCandidate_of_tieAt ⟨half, below, above⟩
    exact unwrap_of_two_nearest lower upper (by omega)

/-! ### The laws -/

theorem wrap_unwrap (tie : UnwrapTie) (w isn : Wire) (c : Word) :
    wrap (unwrap tie w isn c) isn = w :=
  candidate_iff_wrap_eq.1 (unwrap_nearest tie w isn c).1

/-- A value encodes to its own wire value at distance 0. -/
theorem unwrap_wrap (tie : UnwrapTie) (a : Word) (isn : Wire) :
    unwrap tie (wrap a isn) isn a = a := by
  have nearer := (unwrap_nearest tie (wrap a isn) isn a).2 a.toNat (candidate_iff_wrap_eq.2 rfl)
  apply BitVec.eq_of_toNat_eq
  omega

/-- `unwrap` reads the wire value and the ISN only through their difference. -/
theorem unwrap_sub32_zero (tie : UnwrapTie) (w isn : Wire) (c : Word) :
    unwrap tie w isn c = unwrap tie (sub32 w isn) 0 c := by
  have offset : sub32 (sub32 w isn) 0 = sub32 w isn := BitVec.sub_zero _
  unfold unwrap unwrapCandidates
  rw [offset]

/-- The 2^32 values from c − 2^31 on hold a candidate, and none of them is farther than 2^31. -/
theorem unwrap_bound (tie : UnwrapTie) (w isn : Wire) {c : Word} (low : 2 ^ 31 ≤ c.toNat)
    (high : c.toNat ≤ 2 ^ 64 - 1 - 2 ^ 31) :
    distance (unwrap tie w isn c).toNat c.toNat ≤ 2 ^ 31 := by
  obtain ⟨y, hy, fromBelow, toAbove⟩ :=
    exists_candidate_ge w isn (b := c.toNat - 2 ^ 31) (by omega)
  have nearer := (unwrap_nearest tie w isn c).2 y hy
  simp only [distance]
  omega

/-- Settles O18: each law by its own lemma. -/
theorem codecLaws : Obligations.CodecLaws := by
  refine ⟨wrap_unwrap, unwrap_wrap, ?nearest, ?period, wrap_eq_add32_wrap_zero, unwrap_sub32_zero,
    ?bound⟩
  case nearest => exact fun tie w isn c => (unwrap_nearest tie w isn c).2
  case period => exact fun a isn _ => wrap_add_period a isn
  case bound => exact fun tie w isn _ => unwrap_bound tie w isn

/-! ### The codec commands -/

theorem execSncWrap_of_goodOperands {s : State} (good : wrapOperandsOk s.port = true) :
    execSncWrap s = respondOk s ((wrap s.port.opa (wireField s.port.opb)).zeroExtend 64) := by
  simp only [execSncWrap, good, if_true]

theorem execSncUnwrap_of_goodOperands {s : State} (good : unwrapOperandsOk s.port = true) :
    execSncUnwrap s = respondOk s
      (unwrap s.params.unwrapTie (wireField s.port.opa) (wireField s.port.opb) s.port.opc) := by
  simp only [execSncUnwrap, good, if_true]

theorem unwrapOperandsOk_iff (c : Command) :
    unwrapOperandsOk c = true ↔ c.opa.toNat < 2 ^ 32 ∧ c.opb.toNat < 2 ^ 32 := by
  rw [unwrapOperandsOk, Bool.and_eq_true, fitsIn_iff, fitsIn_iff]

/-- The wire value of an operand's ISN, zero-extended, from the whole ports. -/
theorem zeroExtend_wrap_wireField (a b : Word) :
    (wrap a (wireField b)).zeroExtend 64 =
      BitVec.ofNat 64 ((b.toNat + a.toNat) % 2 ^ 32) := by
  apply BitVec.eq_of_toNat_eq
  rw [BitVec.toNat_setWidth, toNat_wrap, wireField_eq, BitVec.toNat_ofNat, BitVec.toNat_ofNat,
    ← Nat.add_mod]

/-- Settles O19: the operand passes its check, and the answer is the wire value. -/
theorem sncWrapResult : Obligations.SncWrapResult := by
  intro s fits
  calc exec .sncWrap s
      = respondOk s ((wrap s.port.opa (wireField s.port.opb)).zeroExtend 64) :=
        execSncWrap_of_goodOperands ((fitsIn_iff 32 s.port.opb).2 fits)
    _ = _ := by rw [zeroExtend_wrap_wireField, respondOk_eq]

/-- Settles O20: both operands pass their checks, and the answer is the absolute value. -/
theorem sncUnwrapResult : Obligations.SncUnwrapResult := by
  intro s fitsA fitsB
  calc exec .sncUnwrap s
      = respondOk s
          (unwrap s.params.unwrapTie (wireField s.port.opa) (wireField s.port.opb) s.port.opc) :=
        execSncUnwrap_of_goodOperands ((unwrapOperandsOk_iff s.port).2 ⟨fitsA, fitsB⟩)
    _ = _ := by rw [wireField_eq, wireField_eq, respondOk_eq]

end Sys2Proof.Machine
end

section
/-! RA_INSERT (41_reassembler.md R96, R97, R114): the three things it can answer, what it leaves
unchanged, and what it does in every state, a good one or not. -/

namespace Sys2Proof.Machine

open Sys2Proof

/-! ### The words of the statements, as the model computes them -/

theorem insertOperandsOk_iff (s : State) :
    insertOperandsOk s.params s.port = true ↔ insertAdmitted s := by
  rw [insertOperandsOk, Bool.and_eq_true, dataFits_iff, decide_eq_true_iff]
  exact Iff.rfl

theorem acceptLimit_eq_limitOf (s : State) : s.acceptLimit = limitOf s := rfl

theorem truncated_iff (s : State) :
    truncated s.port.opa.toNat s.acceptLimit s.port.data = true ↔ operandsTruncated s := by
  rw [truncated, Bool.and_eq_true, decide_eq_true_iff, decide_eq_true_iff]
  exact Iff.rfl

theorem truncated_eq_false_iff (s : State) :
    truncated s.port.opa.toNat s.acceptLimit s.port.data = false ↔ ¬ operandsTruncated s := by
  rw [← truncated_iff, Bool.not_eq_true]

theorem afterStore_slot_eq_storedSlot (s : State) (k : Nat) :
    (s.afterStore s.port.opa.toNat s.port.data).window.slot k = storedSlot s k := by
  rw [afterStore_slot, storedSlot, acceptLimit_eq_limitOf]
  cases s.window.slot k <;> rfl

theorem endDue_iff (s : State) :
    s.endDue = true ↔
      s.raEofValid = true ∧ s.raEofIndex.toNat ≤ s.raBase.toNat ∧ s.raUnasm = 0 := by
  simp [State.endDue, and_assoc]

/-- What the operand ports ask for: `insert` of DATA at OPA. -/
def State.insertPort (s : State) (last : Bool) : State :=
  s.insert s.port.opa.toNat s.port.data last

/-- The state after steps 1 to 3 of `insertPort`, which its drain starts from. -/
def State.markedPort (s : State) (last : Bool) : State :=
  (s.afterStore s.port.opa.toNat s.port.data).markEnd last
    (truncated s.port.opa.toNat s.acceptLimit s.port.data) (s.port.opa.toNat + s.port.data.length)

theorem insertPort_eq (s : State) (last : Bool) :
    s.insertPort last = (s.markedPort last).drain.endCheck := rfl

/-! ### What RA_INSERT answers -/

theorem exec_raInsert_of_ended {last : Bool} {s : State} (admitted : insertAdmitted s)
    (ended : s.raEnded = true) : exec (.raInsert last) s = .next (s.answered .ok 0) := by
  have ok := (insertOperandsOk_iff s).2 admitted
  simp only [exec, execRaInsert, ok, ended, if_true]
  rfl

theorem exec_raInsert_of_open {last : Bool} {s : State} (admitted : insertAdmitted s)
    (notEnded : s.raEnded = false) :
    exec (.raInsert last) s = .next ((s.insertPort last).answered .ok 0) := by
  have ok := (insertOperandsOk_iff s).2 admitted
  simp only [exec, execRaInsert, ok, notEnded, if_true, Bool.false_eq_true, if_false]
  rfl

theorem exec_raInsert_of_not_admitted {last : Bool} {s : State} (bad : ¬ insertAdmitted s) :
    exec (.raInsert last) s = .next (s.answered .illegal 0) := by
  rw [← insertOperandsOk_iff, Bool.not_eq_true] at bad
  exact execRaInsert_of_badOperands bad

/-- Every RA_INSERT fails its operand checks, comes after the end, or inserts. -/
theorem exec_raInsert_cases (last : Bool) (s : State) :
    (¬ insertAdmitted s ∧ exec (.raInsert last) s = .next (s.answered .illegal 0)) ∨
    (insertAdmitted s ∧ s.raEnded = true ∧
      exec (.raInsert last) s = .next (s.answered .ok 0)) ∨
    (insertAdmitted s ∧ s.raEnded = false ∧
      exec (.raInsert last) s = .next ((s.insertPort last).answered .ok 0)) := by
  by_cases admitted : insertAdmitted s
  · cases ended : s.raEnded with
    | true => exact .inr (.inl ⟨admitted, rfl, exec_raInsert_of_ended admitted ended⟩)
    | false => exact .inr (.inr ⟨admitted, rfl, exec_raInsert_of_open admitted ended⟩)
  · exact .inl ⟨admitted, exec_raInsert_of_not_admitted admitted⟩

/-- Settles O23. -/
theorem insertAfterEndDoesNothing : Obligations.InsertAfterEndDoesNothing :=
  fun _ _ admitted ended => exec_raInsert_of_ended admitted ended

/-- Settles O24: the answer alone changes where nothing is inserted, and an insert has the frame of
its steps. -/
theorem insertWritesOnlyReassembler : Obligations.InsertWritesOnlyReassembler := by
  intro last s
  obtain ⟨_, run⟩ | ⟨_, _, run⟩ | ⟨_, _, run⟩ := exec_raInsert_cases last s
  · exact ⟨_, run, rfl⟩
  · exact ⟨_, run, rfl⟩
  · obtain ⟨b, w, u, v, x, d, ev, inserted⟩ := insert_frame s s.port.opa.toNat s.port.data last
    refine ⟨_, run, ?_⟩
    rw [State.insertPort, inserted]
    rfl

/-! ### The mark and the end check -/

/-- The mark that step 3 leaves (41_reassembler.md R100). -/
def State.marksEnd (s : State) (last : Bool) : Bool :=
  if last then !truncated s.port.opa.toNat s.acceptLimit s.port.data else s.raEofValid

/-- The end index that step 3 leaves (41_reassembler.md R100). -/
def State.markIndex (s : State) (last : Bool) : Word :=
  if last && !truncated s.port.opa.toNat s.acceptLimit s.port.data then
    BitVec.ofNat 64 (s.port.opa.toNat + s.port.data.length) else s.raEofIndex

theorem marksEnd_iff (s : State) (last : Bool) :
    s.marksEnd last = true ↔
      (last = true ∧ ¬ operandsTruncated s) ∨ (last = false ∧ s.raEofValid = true) := by
  rw [← truncated_eq_false_iff]
  cases last <;> simp [State.marksEnd]

theorem markIndex_of_set {s : State} (whole : ¬ operandsTruncated s) :
    s.markIndex true = BitVec.ofNat 64 (s.port.opa.toNat + s.port.data.length) := by
  simp [State.markIndex, (truncated_eq_false_iff s).2 whole]

theorem markIndex_of_kept {s : State} {last : Bool} (h : last = false ∨ operandsTruncated s) :
    s.markIndex last = s.raEofIndex := by
  obtain rfl | cut := h
  · rfl
  · simp [State.markIndex, (truncated_iff s).2 cut]

/-- Steps 1 to 3 write the window, its count and the mark. -/
theorem markedPort_frame (s : State) (last : Bool) :
    ∃ w u, s.markedPort last =
      { s with
        window := w
        raUnasm := u
        raEofValid := s.marksEnd last
        raEofIndex := s.markIndex last } := by
  obtain ⟨w, u, stored⟩ := afterStore_frame s s.port.opa.toNat s.port.data
  exact ⟨w, u, by rw [State.markedPort, markEnd_frame, stored]; rfl⟩

/-- Steps 4 and 5 leave the mark. -/
theorem insertPort_mark (s : State) (last : Bool) :
    (s.insertPort last).raEofValid = s.marksEnd last ∧
      (s.insertPort last).raEofIndex = s.markIndex last := by
  obtain ⟨w, u, marked⟩ := markedPort_frame s last
  obtain ⟨_, _, _, _, drained⟩ := drain_frame (s.markedPort last)
  rw [insertPort_eq, endCheck_eq, drained, marked]
  exact ⟨rfl, rfl⟩

theorem endCheck_of_not_due {s : State} (h : s.endDue = false) : s.endCheck = s := by
  simp only [State.endCheck, h, Bool.false_eq_true, if_false]

theorem endDue_of_clear_mark {s : State} (clear : s.raEofValid = false) : s.endDue = false := by
  rw [State.endDue, clear, Bool.false_and, Bool.false_and]

/-- The drain writes bytes to the sink, in every state (41_reassembler.md R101). -/
theorem drainLoop_events (n : Nat) (s : State) :
    ∃ bytes : List Byte,
      (drainLoop n s).sink.events = s.sink.events ++ bytes.map .byte := by
  induction n generalizing s with
  | zero => exact ⟨[], (List.append_nil _).symm⟩
  | succ n ih =>
    simp only [drainLoop]
    cases s.window.slot 0 with
    | none => exact ⟨[], (List.append_nil _).symm⟩
    | some b =>
      obtain ⟨bytes, events⟩ := ih (s.drainOne b)
      exact ⟨b :: bytes, events.trans (List.append_assoc _ _ _)⟩

/-- An insert that leaves the mark clear writes bytes to the sink and does not end the stream. -/
theorem insertPort_of_clear_mark {s : State} {last : Bool} (clear : s.marksEnd last = false) :
    (s.insertPort last).raEnded = s.raEnded ∧ ∃ bytes : List Byte,
      (s.insertPort last).sink.events = s.sink.events ++ bytes.map .byte := by
  obtain ⟨w, u, marked⟩ := markedPort_frame s last
  obtain ⟨_, _, _, _, drained⟩ := drain_frame (s.markedPort last)
  obtain ⟨bytes, events⟩ := drainLoop_events (s.markedPort last).window.length (s.markedPort last)
  have notDue : (s.markedPort last).drain.endDue = false :=
    endDue_of_clear_mark (by rw [drained, marked]; exact clear)
  rw [insertPort_eq, endCheck_of_not_due notDue]
  refine ⟨by rw [drained, marked], bytes, events.trans ?_⟩
  rw [marked]

/-- Settles O32: the mark is clear after step 3, so the end check is false. -/
theorem truncatedLastDoesNotEnd : Obligations.TruncatedLastDoesNotEnd := by
  intro last s notEnded admitted unset
  have clear : s.marksEnd last = false := by
    rw [← Bool.not_eq_true, marksEnd_iff]
    obtain ⟨rfl, cut⟩ | ⟨rfl, clear⟩ := unset
    · simp [cut]
    · simp [clear]
  obtain ⟨valid, index⟩ := insertPort_mark s last
  obtain ⟨ended, bytes, events⟩ := insertPort_of_clear_mark clear
  exact ⟨_, bytes, exec_raInsert_of_open admitted notEnded, valid.trans clear,
    index.trans (markIndex_of_kept (unset.symm.imp And.left And.right)), ended.trans notEnded,
    events⟩

end Sys2Proof.Machine
end

section
/-! RA_INSERT where nothing is stored (41_reassembler.md R98, R103 to R106): every acceptable byte of
the operands is already held, or there is none. Then nothing drains, and what is left is the mark and
the end check. -/

namespace Sys2Proof.Machine

open Sys2Proof

/-! ### Nothing to store -/

/-- Every acceptable byte of the operands stands for a slot that is present. -/
def AcceptableHeld (s : State) : Prop :=
  ∀ i, s.port.opa.toNat ≤ i → i < s.port.opa.toNat + s.port.data.length →
    s.raBase.toNat ≤ i → i < limitOf s → s.window.present (i - s.raBase.toNat) = true

theorem acceptableHeld_of_empty {s : State} (empty : s.port.data = []) : AcceptableHeld s := by
  intro i above below
  simp only [empty, List.length_nil] at below
  omega

theorem acceptableHeld_of_stale {s : State}
    (stale : s.port.opa.toNat + s.port.data.length ≤ s.raBase.toNat) : AcceptableHeld s := by
  intro i _ below base
  omega

theorem acceptableHeld_of_beyond {s : State} (beyond : limitOf s ≤ s.port.opa.toNat) :
    AcceptableHeld s := by
  intro i above _ _ limit
  omega

theorem storeByte_of_present {s : State} {k : Nat} (b : Byte)
    (present : s.window.present k = true) : s.storeByte k b = s := if_pos present

theorem storeRun_of_present {s : State} {k : Nat} {bs : List Byte}
    (present : ∀ j, j < bs.length → s.window.present (k + j) = true) : s.storeRun k bs = s := by
  induction bs generalizing k with
  | nil => rfl
  | cons b bs ih =>
    rw [State.storeRun, storeByte_of_present b (by simpa using present 0 (Nat.succ_pos _))]
    refine ih fun j below => ?_
    rw [Nat.add_assoc, Nat.add_comm 1]
    exact present (j + 1) (Nat.succ_lt_succ below)

theorem afterStore_of_held {s : State} (held : AcceptableHeld s) :
    s.afterStore s.port.opa.toNat s.port.data = s := by
  refine storeRun_of_present fun j below => ?_
  have room := clip_length_le s.port.opa.toNat s.raBase.toNat s.acceptLimit s.port.data
  have limit := acceptLimit_eq_limitOf s
  rw [show max s.port.opa.toNat s.raBase.toNat - s.raBase.toNat + j =
    max s.port.opa.toNat s.raBase.toNat + j - s.raBase.toNat by omega]
  exact held _ (by omega) (by omega) (by omega) (by omega)

theorem RaInv.slot_zero {s : State} (h : RaInv s) : s.window.slot 0 = none := by
  simpa [Memory.present] using h.slotZero

/-- Nothing stored, so nothing drains: only the mark and the end check are left. -/
theorem insertPort_of_held {s : State} (h : RaInv s) (held : AcceptableHeld s) (last : Bool) :
    s.insertPort last =
      { s with raEofValid := s.marksEnd last, raEofIndex := s.markIndex last }.endCheck := by
  have marked : s.markedPort last =
      { s with raEofValid := s.marksEnd last, raEofIndex := s.markIndex last } := by
    rw [State.markedPort, afterStore_of_held held, markEnd_frame]
    rfl
  rw [insertPort_eq, marked]
  exact congrArg State.endCheck (drain_of_slot_zero h.slot_zero)

/-! ### With the mark as it was -/

/-- A mark that stays as it was: the end check finds what the last command left
(41_reassembler.md R104). -/
theorem insertPort_of_same_mark {s : State} (h : RaInv s) (notEnded : s.raEnded = false)
    (held : AcceptableHeld s) {last : Bool} (valid : s.marksEnd last = s.raEofValid)
    (index : s.markIndex last = s.raEofIndex) : s.insertPort last = s := by
  rw [insertPort_of_held h held, valid, index]
  exact endCheck_of_not_due (h.endSettled.trans notEnded)

theorem exec_insertNotLast_of_held {s : State} (h : RaInv s) (admitted : insertAdmitted s)
    (held : AcceptableHeld s) : exec (.raInsert false) s = .next (s.answered .ok 0) := by
  cases ended : s.raEnded with
  | true => exact exec_raInsert_of_ended admitted ended
  | false =>
    rw [exec_raInsert_of_open admitted ended, insertPort_of_same_mark h ended held rfl rfl]

/-- Settles O27. -/
theorem insertEmptyNotLast : Obligations.InsertEmptyNotLast :=
  fun _ h admitted empty => exec_insertNotLast_of_held h admitted (acceptableHeld_of_empty empty)

/-! ### With the mark set or cleared -/

/-- An untruncated LAST insert that stores nothing sets the mark and runs the end check
(41_reassembler.md R100, R102). -/
theorem exec_insertLast_of_held {s : State} {e : Nat} (h : RaInv s) (notEnded : s.raEnded = false)
    (admitted : insertAdmitted s) (held : AcceptableHeld s) (whole : ¬ operandsTruncated s)
    (ends : s.port.opa.toNat + s.port.data.length = e) :
    exec (.raInsert true) s = .next { s with
      raEofValid := true
      raEofIndex := BitVec.ofNat 64 e
      raEnded := decide (e ≤ s.raBase.toNat ∧ s.raUnasm = 0)
      sink := { s.sink with events := s.sink.events ++
        (if e ≤ s.raBase.toNat ∧ s.raUnasm = 0 then [.eof] else []) }
      answer := some ⟨.ok, 0⟩ } := by
  have valid : s.marksEnd true = true := (marksEnd_iff s true).2 (.inl ⟨rfl, whole⟩)
  have due : { s with raEofValid := true, raEofIndex := BitVec.ofNat 64 e }.endDue =
      decide (e ≤ s.raBase.toNat ∧ s.raUnasm = 0) := by
    rw [Bool.eq_iff_iff, endDue_iff, toNat_ofNat_of_le_maxWord (ends ▸ admitted.2),
      decide_eq_true_iff]
    simp
  rw [exec_raInsert_of_open admitted notEnded, insertPort_of_held h held, valid,
    markIndex_of_set whole, ends, endCheck_eq, due]
  simp [State.answered, notEnded]

/-- Settles O26: no byte, so nothing is stored and nothing truncated. -/
theorem insertEmptyLast : Obligations.InsertEmptyLast := by
  intro s h notEnded admitted empty
  have whole : ¬ operandsTruncated s := by simp [operandsTruncated, empty]
  have run := exec_insertLast_of_held h notEnded admitted (acceptableHeld_of_empty empty) whole
    (show _ = s.port.opa.toNat by simp [empty])
  simpa only [BitVec.ofNat_toNat, BitVec.setWidth_eq] using run

/-- Settles O28: no byte is acceptable, and the end is at or below `ra_base`, so below the limit. -/
theorem insertStaleData : Obligations.InsertStaleData := by
  intro last s h notEnded admitted stale
  have held := acceptableHeld_of_stale stale
  cases last with
  | false =>
    rw [exec_insertNotLast_of_held h admitted held]
    simp [State.answered, notEnded]
  | true =>
    have whole : ¬ operandsTruncated s := by
      intro ⟨_, beyond⟩
      simp only [limitOf] at beyond
      omega
    rw [exec_insertLast_of_held h notEnded admitted held whole rfl]
    simp [stale]

/-- Settles O29: no byte is acceptable, and the last one is beyond the limit. -/
theorem insertBeyondLimit : Obligations.InsertBeyondLimit := by
  intro last s h notEnded admitted nonempty beyond
  have held := acceptableHeld_of_beyond beyond
  cases last with
  | false => exact exec_insertNotLast_of_held h admitted held
  | true =>
    have pos := List.length_pos_iff.2 nonempty
    have cut : operandsTruncated s := ⟨pos, by omega⟩
    have clear : s.marksEnd true = false := by
      rw [← Bool.not_eq_true, marksEnd_iff]
      simp [cut]
    rw [exec_raInsert_of_open admitted notEnded, insertPort_of_held h held, clear,
      markIndex_of_kept (.inr cut), endCheck_of_not_due (endDue_of_clear_mark rfl)]
    rfl

end Sys2Proof.Machine
end

section
/-! The whole result of an insert in a good state (41_reassembler.md R98 to R102): what drains are the
slots before the first absent one after the store step. From it the laws of R112 and R113. -/

namespace Sys2Proof.Machine

open Sys2Proof

/-! ### What drains -/

/-- The insert of the operands from `s` to `t` drains `d` slots: those before the first absent one
after the store step, and the others move down (41_reassembler.md R101). -/
structure Drains (s t : State) (d : Nat) : Prop where
  present : ∀ j, j < d → storedSlot s j ≠ none
  absent : storedSlot s d = none
  slots : ∀ k, t.window.slot k = storedSlot s (k + d)
  inserted : Inserted s t ((List.range d).filterMap (storedSlot s))

theorem markedPort_window (s : State) (last : Bool) :
    (s.markedPort last).window = (s.afterStore s.port.opa.toNat s.port.data).window := by
  rw [State.markedPort, markEnd_frame]

theorem markedPort_sink (s : State) (last : Bool) : (s.markedPort last).sink = s.sink := by
  obtain ⟨w, u, marked⟩ := markedPort_frame s last
  rw [marked]

theorem markedPort_raBase (s : State) (last : Bool) : (s.markedPort last).raBase = s.raBase := by
  obtain ⟨w, u, marked⟩ := markedPort_frame s last
  rw [marked]

theorem markedPort_raUnasm (s : State) (last : Bool) :
    (s.markedPort last).raUnasm = (s.afterStore s.port.opa.toNat s.port.data).raUnasm := by
  rw [State.markedPort, markEnd_frame]

theorem markedPort_slot (s : State) (last : Bool) :
    (s.markedPort last).window.slot = storedSlot s :=
  funext fun k => markedPort_window s last ▸ afterStore_slot_eq_storedSlot s k

theorem endCheck_window (s : State) : s.endCheck.window = s.window := by rw [endCheck_eq]

/-- The end event is no byte. -/
theorem endCheck_sink_bytes (s : State) : s.endCheck.sink.bytes = s.sink.bytes := by
  rw [endCheck_eq, Sink.bytes, List.filterMap_append, filterMap_written_ite_eof, List.append_nil,
    Sink.bytes]

/-- What `drain_spec` says of the drain of an insert, read on the slots after the store step. -/
theorem insertPort_slots {s : State} (h : RaInv s) (admitted : insertAdmitted s) (last : Bool) :
    ∃ d, (∀ j, j < d → storedSlot s j ≠ none) ∧ storedSlot s d = none ∧
      (∀ k, (s.insertPort last).window.slot k = storedSlot s (k + d)) ∧
      (s.insertPort last).sink.bytes =
        s.sink.bytes ++ (List.range d).filterMap (storedSlot s) := by
  have window := markedPort_window s last
  have wf : (s.markedPort last).window.wf := window ▸ storeRun_wf h.windowWf _ _
  have unasm : (s.markedPort last).raUnasm.toNat = (s.markedPort last).window.length := by
    rw [window, markedPort_raUnasm]
    exact afterStore_unasm h admitted.2
  have below : ∀ c ∈ (s.markedPort last).window,
      (s.markedPort last).raBase.toNat + c.1 < maxWord := by
    rw [window, markedPort_raBase]
    exact fun c hc => (afterStore_below h admitted.2 c hc).2
  obtain ⟨d, present, absent, _, _, slots, _, events⟩ := drain_spec _ wf unasm below
  rw [markedPort_slot] at present absent slots events
  refine ⟨d, present, absent, ?slots, ?bytes⟩
  case slots => simpa only [insertPort_eq, endCheck_window] using slots
  case bytes =>
    rw [insertPort_eq, endCheck_sink_bytes, Sink.bytes, events, List.filterMap_append,
      map_byte_filterMap_written, markedPort_sink, Sink.bytes]

theorem insertPort_drains {s : State} (h : RaInv s) (notEnded : s.raEnded = false)
    (admitted : insertAdmitted s) (last : Bool) : ∃ d, Drains s (s.insertPort last) d := by
  obtain ⟨bytes, inserted⟩ := insert_inserted h notEnded admitted.2 last
  obtain ⟨d, present, absent, slots, written⟩ := insertPort_slots h admitted last
  have same : bytes = (List.range d).filterMap (storedSlot s) :=
    List.append_cancel_left (inserted.sink_bytes.symm.trans written)
  exact ⟨d, present, absent, slots, same ▸ inserted⟩

theorem Drains.base {s t : State} {d : Nat} (drains : Drains s t d) :
    t.raBase.toNat = s.raBase.toNat + d := by
  rw [drains.inserted.base, length_filterMap_range_of_present drains.present]

/-- Settles O25: the drain, then the mark of step 3, which nothing after it writes. -/
theorem insertResult : Obligations.InsertResult := by
  intro last s h notEnded admitted
  obtain ⟨d, drains⟩ := insertPort_drains h notEnded admitted last
  obtain ⟨valid, index⟩ := insertPort_mark s last
  have inserted := drains.inserted
  refine ⟨_, d, exec_raInsert_of_open admitted notEnded, drains.present, drains.absent,
    drains.base, inserted.windowWf, drains.slots, inserted.unasm, inserted.events, ?mark,
    ?set, ?kept, ?ended, rfl⟩
  case mark => exact valid ▸ marksEnd_iff s last
  case set =>
    rintro ⟨rfl, whole⟩
    rw [answered_raEofIndex, index, markIndex_of_set whole]
    exact toNat_ofNat_of_le_maxWord admitted.2
  case kept => exact fun kept => index.trans (markIndex_of_kept kept)
  case ended => exact inserted.endSettled ▸ endDue_iff (s.insertPort last)

/-! ### The same insert again -/

theorem storedSlot_of_acceptable {s : State} {i : Nat} (base : s.raBase.toNat ≤ i)
    (above : s.port.opa.toNat ≤ i) (below : i < s.port.opa.toNat + s.port.data.length)
    (limit : i < limitOf s) : storedSlot s (i - s.raBase.toNat) ≠ none := by
  have index : s.raBase.toNat + (i - s.raBase.toNat) = i := by omega
  rw [← afterStore_slot_eq_storedSlot, afterStore_slot, acceptLimit_eq_limitOf, index,
    if_pos ⟨above, limit⟩, List.getElem?_eq_getElem (by omega)]
  simp

/-- Every acceptable byte is present or drained after the insert, and the limit has not moved
(41_reassembler.md R112). -/
theorem Drains.acceptableHeld {s t : State} {d : Nat} (drains : Drains s t d) (h : RaInv s)
    (port : t.port = s.port) : AcceptableHeld t := by
  intro i above below base limit
  rw [port] at above below
  rw [drains.inserted.limit h.readLe] at limit
  have tBase := drains.base
  have offset : i - t.raBase.toNat + d = i - s.raBase.toNat := by omega
  rw [Memory.present, drains.slots, offset, Option.isSome_iff_ne_none]
  exact storedSlot_of_acceptable (by omega) above below limit

/-- The same operands below the same limit leave the mark that they left. -/
theorem mark_again {s t : State} {last : Bool} (port : t.port = s.port)
    (limit : limitOf t = limitOf s) (valid : t.raEofValid = s.marksEnd last)
    (index : t.raEofIndex = s.markIndex last) :
    t.marksEnd last = t.raEofValid ∧ t.markIndex last = t.raEofIndex := by
  have same : operandsTruncated t ↔ operandsTruncated s := by
    rw [operandsTruncated, port, limit, operandsTruncated]
  cases last with
  | false => exact ⟨rfl, rfl⟩
  | true =>
    refine ⟨?valid, ?index⟩
    case valid =>
      rw [valid, Bool.eq_iff_iff, marksEnd_iff, marksEnd_iff, same]
      simp
    case index =>
      by_cases cut : operandsTruncated s
      · exact markIndex_of_kept (.inr (same.2 cut))
      · rw [index, markIndex_of_set cut, markIndex_of_set (mt same.1 cut), port]

theorem insertPort_params_port (s : State) (last : Bool) :
    (s.insertPort last).params = s.params ∧ (s.insertPort last).port = s.port := by
  obtain ⟨_, _, _, _, _, _, _, inserted⟩ :=
    insert_frame s s.port.opa.toNat s.port.data last
  rw [State.insertPort, inserted]
  exact ⟨rfl, rfl⟩

/-- After an insert the same one finds every acceptable byte held and the mark as it leaves it. -/
theorem exec_insertPort_again {s : State} (h : RaInv s) (notEnded : s.raEnded = false)
    (admitted : insertAdmitted s) (last : Bool) :
    exec (.raInsert last) ((s.insertPort last).answered .ok 0) =
      .next ((s.insertPort last).answered .ok 0) := by
  obtain ⟨d, drains⟩ := insertPort_drains h notEnded admitted last
  obtain ⟨params, port⟩ := insertPort_params_port s last
  obtain ⟨valid, index⟩ := insertPort_mark s last
  have limit := drains.inserted.limit h.readLe
  have held := drains.acceptableHeld h port
  have inv := (h.inserted notEnded drains.inserted).of_same_reassembler
    (t := (s.insertPort last).answered .ok 0) rfl rfl
  generalize s.insertPort last = t at *
  have admitted' : insertAdmitted (t.answered .ok 0) := by
    rwa [insertAdmitted, answered_params, answered_port, params, port]
  cases ended : t.raEnded with
  | true => exact exec_raInsert_of_ended admitted' ended
  | false =>
    obtain ⟨sameValid, sameIndex⟩ := mark_again (t := t.answered .ok 0) port limit valid index
    rw [exec_raInsert_of_open admitted' ended,
      insertPort_of_same_mark inv ended held sameValid sameIndex]
    rfl

/-- Settles O30: a refused insert is refused again, and after the end nothing is inserted. -/
theorem insertIsIdempotent : Obligations.InsertIsIdempotent := by
  intro last s t h run
  obtain ⟨bad, answers⟩ | ⟨admitted, ended, answers⟩ | ⟨admitted, notEnded, answers⟩ :=
    exec_raInsert_cases last s
  all_goals obtain rfl := Host.Outcome.next.inj (run.symm.trans answers)
  · exact exec_raInsert_of_not_admitted bad
  · exact exec_raInsert_of_ended admitted ended
  · exact exec_insertPort_again h notEnded admitted last

/-! ### The logical stream -/

theorem storedSlot_agrees {f : Nat → Byte} {s : State} (agrees : agreesWith f s)
    (data : ∀ i b, s.port.data[i]? = some b → b = f (s.port.opa.toNat + i)) {k : Nat} {b : Byte}
    (stored : storedSlot s k = some b) : b = f (s.raBase.toNat + k) := by
  rw [← afterStore_slot_eq_storedSlot, afterStore_slot, Option.or_eq_some_iff] at stored
  obtain held | ⟨_, taken⟩ := stored
  · exact agrees.2 k b held
  · split at taken
    · next acceptable =>
      rw [data _ b taken, Nat.add_sub_cancel' acceptable.1]
    · cases taken

/-- The drained bytes are those of the stream's indices from `ra_base` on. -/
theorem drained_agrees {f : Nat → Byte} {s : State} {d : Nat}
    (present : ∀ j, j < d → storedSlot s j ≠ none)
    (agrees : ∀ k b, storedSlot s k = some b → b = f (s.raBase.toNat + k)) :
    (List.range d).filterMap (storedSlot s) =
      (List.range d).map fun j => f (s.raBase.toNat + j) := by
  rw [← List.filterMap_eq_map]
  refine List.filterMap_congr fun j mem => ?_
  obtain ⟨b, stored⟩ := Option.ne_none_iff_exists'.1 (present j (List.mem_range.1 mem))
  rw [stored, agrees j b stored]
  rfl

theorem Drains.agreesWith {f : Nat → Byte} {s t : State} {d : Nat} (drains : Drains s t d)
    (h : RaInv s) (agrees : agreesWith f s)
    (data : ∀ i b, s.port.data[i]? = some b → b = f (s.port.opa.toNat + i)) :
    agreesWith f t := by
  have stored : ∀ k b, storedSlot s k = some b → b = f (s.raBase.toNat + k) :=
    fun _ _ => storedSlot_agrees agrees data
  refine ⟨?delivered, ?held⟩
  case delivered =>
    rw [drains.inserted.delivered h.written, agrees.1, drained_agrees drains.present stored,
      drains.base, List.range_add, List.map_append, List.map_map]
    rfl
  case held =>
    intro k b held
    rw [drains.slots] at held
    rw [stored _ _ held, drains.base, Nat.add_assoc, Nat.add_comm d]

/-- The drain does not stop below an index that is delivered, held or acceptable
(41_reassembler.md R113). -/
theorem Drains.le_base {s t : State} {d n : Nat} (drains : Drains s t d)
    (known : ∀ i, i < n → i < s.raBase.toNat ∨
      s.window.present (i - s.raBase.toNat) = true ∨
      (s.port.opa.toNat ≤ i ∧ i < s.port.opa.toNat + s.port.data.length ∧ i < limitOf s)) :
    n ≤ t.raBase.toNat := by
  rw [drains.base, ← Nat.not_lt]
  intro beyond
  have offset : s.raBase.toNat + d - s.raBase.toNat = d := Nat.add_sub_cancel_left ..
  obtain delivered | held | ⟨above, below, limit⟩ := known _ beyond
  · omega
  · obtain ⟨b, slot⟩ := Memory.present_iff.1 held
    have absent := drains.absent
    rw [offset] at slot
    rw [← afterStore_slot_eq_storedSlot, afterStore_slot, slot] at absent
    cases absent
  · have stored := storedSlot_of_acceptable (Nat.le_add_right _ _) above below limit
    rw [offset] at stored
    exact stored drains.absent

/-- Settles O31: without an insert the delivered bytes and the window stay; an insert drains stored
slots, which agree with the stream. -/
theorem sinkHoldsStreamPrefix : Obligations.SinkHoldsStreamPrefix := by
  intro f last s t h agrees data run
  obtain ⟨bad, answers⟩ | ⟨_, ended, answers⟩ | ⟨admitted, notEnded, answers⟩ :=
    exec_raInsert_cases last s
  all_goals obtain rfl := Host.Outcome.next.inj (run.symm.trans answers)
  · exact ⟨agrees, fun _ admitted => absurd admitted bad⟩
  · exact ⟨agrees, fun notEnded => by rw [ended] at notEnded; cases notEnded⟩
  · obtain ⟨d, drains⟩ := insertPort_drains h notEnded admitted last
    exact ⟨drains.agreesWith h agrees data, fun _ _ _ known => drains.le_base known⟩

end Sys2Proof.Machine
end

section
/-! SND_FILL (42_sender.md R115 to R125): which segment one turn of the loop emits, what sending it
does, and the loop as a fill of its own after each segment. -/

namespace Sys2Proof.Machine

open Sys2Proof

/-! ### The segment that is due -/

/-- The FIN goes with a segment that takes what the source holds (42_sender.md R123). -/
theorem finFits_iff {s : State} {n : Nat} (avail : n ≤ s.srcAvail) :
    s.finFits n = true ↔ s.source.ended = true ∧ n = s.srcAvail ∧ n + 1 ≤ s.room := by
  have last : s.srcAvail - n = 0 ↔ n = s.srcAvail := by omega
  simp only [State.finFits, State.srcEnded, Bool.and_eq_true, decide_eq_true_eq, last, and_assoc]

theorem payloadLen_le_srcAvail (s : State) : s.payloadLen ≤ s.srcAvail :=
  (Nat.min_le_left _ _).trans (Nat.min_le_left _ _)

/-- The loop goes on exactly where none of its four tests returns (42_sender.md R119). -/
theorem nextSegment_eq_some_iff (s : State) (n : Nat) (fin : Bool) :
    s.nextSegment = some (n, fin) ↔
      0 < s.room ∧ (0 < s.srcAvail ∨ s.source.ended = true) ∧ s.queueFull = false ∧
        n = s.payloadLen ∧ fin = s.finFits n ∧ 0 < n + fin.toNat ∧
        s.sndNext.toNat + n + fin.toNat ≤ maxWord := by
  have pending : ¬ (s.srcAvail = 0 ∧ s.srcEnded = false) ↔
      0 < s.srcAvail ∨ s.source.ended = true := by
    rw [not_and_or, Bool.not_eq_false, Nat.pos_iff_ne_zero]
    rfl
  simp only [State.nextSegment, Option.ite_none_left_eq_some, Option.some.injEq, Prod.mk.injEq,
    ← Nat.pos_iff_ne_zero, pending, Bool.not_eq_true, Nat.not_lt]
  constructor
  · rintro ⟨room, pending, free, pos, top, rfl, rfl⟩
    exact ⟨room, pending, free, rfl, rfl, pos, top⟩
  · rintro ⟨room, pending, free, rfl, rfl, pos, top⟩
    exact ⟨room, pending, free, pos, top, rfl, rfl⟩

/-- Settles O38: the four tests, with the room, the payload length and the FIN's conditions as the
rules write them. -/
theorem dueSegment : Obligations.DueSegment := by
  intro s n fin room avail
  have full : s.queueFull = false ↔
      ∀ d, s.params.qDepth = some d → s.queue.length ≠ d.toNat := queueFull_eq_false_iff s
  rw [nextSegment_eq_some_iff, full]
  refine and_congr_right fun _ => and_congr_right fun _ => and_congr_right fun _ =>
    and_congr_right fun len => and_congr_left fun _ => ?_
  rw [Bool.eq_iff_iff, finFits_iff (len.trans_le (payloadLen_le_srcAvail s))]
  exact Iff.rfl

theorem nextSegment_eq_none_of_no_room {s : State} (full : s.room = 0) : s.nextSegment = none := by
  simp only [State.nextSegment, full, if_true]

/-! ### What a sent segment does -/

/-- Settles O39: the bytes read are the payload of the one new segment. -/
theorem sentSegment : Obligations.SentSegment := by
  intro s n fin avail
  have length : (s.srcFront n).length = n := srcFront_length avail
  rw [sendSegment_eq, emitNew_eq]
  simp only [recordOf, Entry.len, length, Bool.toNat_false, Nat.add_zero]
  rfl

/-! ### The loop, turn by turn -/

theorem exec_sndFill (s : State) : exec .sndFill s = .next (s.fill.answered .ok 0) := rfl

theorem fill_of_closed {s : State} (closed : s.sndState = .closed) :
    s.fill = { s.emitNew true false [] with sndState := .synSent } := by
  simp only [State.fill, closed]

theorem fill_of_waiting {s : State} (waiting : s.sndState = .synSent ∨ s.sndState = .finSent) :
    s.fill = s := by
  obtain synSent | finSent := waiting
  · simp only [State.fill, synSent]
  · simp only [State.fill, finSent]

theorem fill_of_synAcked {s : State} (acked : s.sndState = .synAcked) :
    s.fill = fillLoop (s.srcAvail + 1) s := by
  simp only [State.fill, acked]

theorem fill_of_none_due {s : State} (acked : s.sndState = .synAcked)
    (due : s.nextSegment = none) : s.fill = s := by
  rw [fill_of_synAcked acked, fillLoop, due]

theorem fill_of_last_due {s : State} {n : Nat} (acked : s.sndState = .synAcked)
    (due : s.nextSegment = some (n, true)) : s.fill = s.sendSegment n true := by
  rw [fill_of_synAcked acked, fillLoop, due]
  rfl

/-- A segment without FIN takes a byte from the source, so the turns left are enough for a fill of
the state after it. -/
theorem fill_of_more_due {s : State} {n : Nat} (acked : s.sndState = .synAcked)
    (due : s.nextSegment = some (n, false)) : s.fill = (s.sendSegment n false).fill := by
  obtain ⟨avail, _, _, pos, _⟩ := nextSegment_bounds due
  simp only [Bool.toNat_false, Nat.add_zero] at pos
  have left := sendSegment_srcAvail s n false
  calc s.fill = fillLoop s.srcAvail (s.sendSegment n false) := by
        rw [fill_of_synAcked acked, fillLoop, due]
        rfl
    _ = fillLoop ((s.sendSegment n false).srcAvail + 1) (s.sendSegment n false) :=
        fillLoop_enough _ _ (by omega)
    _ = (s.sendSegment n false).fill :=
        (fill_of_synAcked ((sendSegment_sndState s n).trans acked)).symm

/-- Settles O36: the fill leaves the state, and the answer is driven. -/
theorem fillWhileWaitingDoesNothing : Obligations.FillWhileWaitingDoesNothing := by
  intro s waiting
  rw [exec_sndFill, fill_of_waiting waiting]
  rfl

/-- Settles O37: the three ways a turn of the loop goes. -/
theorem fillRepeatsTurns : Obligations.FillRepeatsTurns := by
  refine ⟨?stops, ?last, ?more⟩
  case stops =>
    intro s acked due
    rw [exec_sndFill, fill_of_none_due acked due]
    rfl
  case last =>
    intro s n acked due
    rw [exec_sndFill, fill_of_last_due acked due]
    rfl
  case more =>
    intro s n acked due
    rw [exec_sndFill, exec_sndFill, fill_of_more_due acked due]

/-! ### The SYN -/

/-- With nothing outstanding nothing is in flight (10_state.md R34) and the timer stands
(10_state.md R44). -/
theorem SndInv.of_queue_nil {s : State} (h : SndInv s) (empty : s.queue = []) :
    s.sndBif = 0 ∧ s.tmrRunning = false := by
  refine ⟨BitVec.eq_of_toNat_eq ?inFlight, ?timer⟩
  case inFlight =>
    rw [h.inFlight, empty]
    rfl
  case timer =>
    rw [h.running, empty]
    rfl

/-- Settles O35: in CLOSED nothing was sent, so the SYN is number 0 and the only one in flight. -/
theorem fillInClosedSendsSyn : Obligations.FillInClosedSendsSyn := by
  intro s h closed
  obtain ⟨next, empty⟩ := h.phase_closed closed
  obtain ⟨inFlight, stopped⟩ := h.of_queue_nil empty
  rw [exec_sndFill, fill_of_closed closed, emitNew_eq]
  simp only [State.answered, recordOf, next, empty, inFlight, stopped, wrap_zero]
  rfl

/-- Settles O43: the frame of the fill, with the answer driven. -/
theorem fillWritesOnlySender : Obligations.FillWritesOnlySender := by
  intro s
  obtain ⟨st, nx, b, q, r, e, bs, out, filled⟩ := fill_frame s
  refine ⟨_, exec_sndFill s, ?_⟩
  rw [filled]
  rfl

/-! ### The effective window -/

theorem sendSegment_effectiveWindow (s : State) (n : Nat) (fin : Bool) :
    (s.sendSegment n fin).effectiveWindow = s.effectiveWindow := by
  rw [sendSegment_eq, emitNew_eq]
  rfl

/-- A due segment fits the room, so it stays within the effective window (42_sender.md R116). -/
theorem sendSegment_sndBif_le {s : State} {n : Nat} {fin : Bool}
    (due : s.nextSegment = some (n, fin)) :
    (s.sendSegment n fin).sndBif.toNat ≤ s.effectiveWindow := by
  obtain ⟨avail, room, _, pos, _⟩ := nextSegment_bounds due
  have fits : s.sndBif.toNat + (n + fin.toNat) ≤ s.effectiveWindow := by
    simp only [State.room] at room
    omega
  rw [sentSegment s n fin avail]
  exact (BitVec.toNat_ofNat _ _).trans_le ((Nat.mod_le _ _).trans fits)

/-- In SYN_ACKED a fill sends nothing or ends within the effective window. -/
theorem fill_withinWindow {s : State} (acked : s.sndState = .synAcked) :
    s.fill.segOut = s.segOut ∨ s.fill.sndBif.toNat ≤ s.effectiveWindow := by
  have sent : s.fill.effectiveWindow = s.effectiveWindow ∧
      (s.fill.segOut = s.segOut ∨ s.fill.sndBif.toNat ≤ s.effectiveWindow) := by
    rw [fill_of_synAcked acked]
    refine fillLoop_induct (P := fun t => t.effectiveWindow = s.effectiveWindow ∧
      (t.segOut = s.segOut ∨ t.sndBif.toNat ≤ s.effectiveWindow)) ?turn _ s acked ⟨rfl, .inl rfl⟩
    intro t n fin ⟨window, _⟩ _ due
    exact ⟨(sendSegment_effectiveWindow t n fin).trans window,
      .inr (window ▸ sendSegment_sndBif_le due)⟩
  exact sent.2

/-- A full effective window leaves no room, so nothing is due (42_sender.md R116). -/
theorem fill_of_window_full {s : State} (acked : s.sndState = .synAcked)
    (full : s.effectiveWindow ≤ s.sndBif.toNat) : s.fill = s :=
  fill_of_none_due acked (nextSegment_eq_none_of_no_room (Nat.sub_eq_zero_of_le full))

/-- Settles O40. -/
theorem fillStaysInWindow : Obligations.FillStaysInWindow := by
  intro s t acked run
  obtain rfl : s.fill.answered .ok 0 = t := Host.Outcome.next.inj run
  refine ⟨fill_withinWindow acked, fun full => ?_⟩
  rw [fill_of_window_full acked full]
  rfl

/-! ### The zero-window probe -/

theorem effectiveWindow_of_zero {s : State} (zero : s.sndWindow = 0) : s.effectiveWindow = 1 := by
  rw [State.effectiveWindow, if_pos zero]

/-- With nothing in flight nothing is outstanding, since no entry is empty (10_state.md R39). -/
theorem SndInv.queue_nil_of_sndBif {s : State} (h : SndInv s) (idle : s.sndBif = 0) :
    s.queue = [] := by
  have total : 0 = totalLen s.queue := by rw [← h.inFlight, idle]; rfl
  cases queue : s.queue with
  | nil => rfl
  | cons e q =>
    have pos := h.lenPos e (queue ▸ List.mem_cons_self)
    simp only [queue, totalLen, List.map_cons, List.sum_cons] at total
    omega

theorem queueFull_of_nil {s : State} (legal : configLegal s.params s.cfg = true)
    (empty : s.queue = []) : s.queueFull = false :=
  (queueFull_eq_false_iff s).2 fun d depth => by
    have := qDepth_pos_of_configLegal legal d depth
    rw [empty, List.length_nil]
    omega

theorem maxPayload_pos_of_configLegal {p : Params} {c : Config} (h : configLegal p c = true) :
    1 ≤ c.maxPayload.toNat := by
  simp only [configLegal, Bool.and_eq_true, decide_eq_true_eq] at h
  exact h.1.1.1.2

/-- A zero window lets one byte, or one FIN, out with nothing in flight (42_sender.md R115). -/
theorem SndInv.probe_due {s : State} (h : SndInv s)
    (legal : configLegal s.params s.cfg = true) (zero : s.sndWindow = 0) (idle : s.sndBif = 0)
    (top : s.sndNext.toNat + 1 ≤ maxWord) :
    (0 < s.srcAvail → s.nextSegment = some (1, false)) ∧
      (s.source = ⟨[], true⟩ → s.nextSegment = some (0, true)) := by
  have room : s.room = 1 := by rw [State.room, effectiveWindow_of_zero zero, idle]; rfl
  have free := queueFull_of_nil legal (h.queue_nil_of_sndBif idle)
  have payload := maxPayload_pos_of_configLegal legal
  refine ⟨fun held => ?byte, fun drained => ?fin⟩
  case byte =>
    have len : 1 = s.payloadLen := by rw [State.payloadLen, room]; omega
    have noFin : false = s.finFits 1 := by
      rw [eq_comm, ← Bool.not_eq_true, finFits_iff held, room]
      omega
    exact (nextSegment_eq_some_iff s 1 false).2
      ⟨by omega, .inl held, free, len, noFin, by decide, top⟩
  case fin =>
    have avail : s.srcAvail = 0 := by rw [State.srcAvail, drained]; rfl
    have len : 0 = s.payloadLen := by rw [State.payloadLen, avail]; omega
    have ended : s.source.ended = true := by rw [drained]
    have finGoes : true = s.finFits 0 :=
      ((finFits_iff (Nat.zero_le _)).2 ⟨ended, avail.symm, room.ge⟩).symm
    exact (nextSegment_eq_some_iff s 0 true).2
      ⟨by omega, .inr ended, free, len, finGoes, by decide, top⟩

theorem ofNat_toNat_add_one (x : Word) : BitVec.ofNat 64 (x.toNat + 1) = x + 1 := by
  rw [BitVec.ofNat_add, BitVec.ofNat_toNat, BitVec.setWidth_eq]
  rfl

/-- Settles O41: the byte fills the room, so the turn after it finds none; the FIN is the last. -/
theorem zeroWindowProbe : Obligations.ZeroWindowProbe := by
  intro s h legal acked zero idle top
  have empty := h.queue_nil_of_sndBif idle
  obtain ⟨_, stopped⟩ := h.of_queue_nil empty
  obtain ⟨byteDue, finDue⟩ := h.probe_due legal zero idle top
  refine ⟨fun b rest bytes => ?byte, fun drained => ?fin⟩
  case byte =>
    have held : 1 ≤ s.source.bytes.length := by rw [bytes]; exact Nat.le_add_left 1 _
    have sent := sentSegment s 1 false held
    have full : (s.sendSegment 1 false).effectiveWindow ≤ (s.sendSegment 1 false).sndBif.toNat := by
      rw [sendSegment_effectiveWindow, effectiveWindow_of_zero zero, sent, idle]
      exact Nat.le_refl 1
    rw [exec_sndFill, fill_of_more_due acked (byteDue held),
      fill_of_window_full ((sendSegment_sndState s 1).trans acked) full, sent]
    simp only [State.answered, bytes, empty, idle, stopped, Bool.toNat_false, ofNat_toNat_add_one]
    rfl
  case fin =>
    rw [exec_sndFill, fill_of_last_due acked (finDue drained), sentSegment s 0 true (Nat.zero_le _)]
    simp only [State.answered, drained, empty, idle, stopped, Bool.toNat_true, Nat.zero_add,
      ofNat_toNat_add_one]
    rfl

end Sys2Proof.Machine
end

section
/-! SND_ACK and SND_EMPTY (42_sender.md R126 to R131): the three things SND_ACK can answer, and what an
accepted ack leaves for its fill. -/

namespace Sys2Proof.Machine

open Sys2Proof

/-! ### What SND_ACK answers -/

theorem ackOperandsOk_iff (s : State) :
    ackOperandsOk s.params s.port = true ↔ ackAdmitted s := by
  rw [ackOperandsOk, Bool.and_eq_true, fitsIn_iff, fitsIn_iff]
  exact Iff.rfl

theorem ackValue_eq_ackOperand (s : State) :
    s.ackValue (wireField s.port.opa) = ackOperand s := by
  rw [State.ackValue, wireField_eq]
  rfl

theorem ackLow_eq_ackLowerBound (s : State) : s.ackLow = ackLowerBound s := by
  unfold State.ackLow ackLowerBound
  cases s.queue <;> rfl

theorem ackAccepted_iff (s : State) : s.ackAccepted (ackOperand s) = true ↔ ackCovers s := by
  rw [State.ackAccepted, Bool.and_eq_true, decide_eq_true_iff, decide_eq_true_iff,
    ackLow_eq_ackLowerBound]
  exact Iff.rfl

/-- What an accepted ack on the operand ports leaves for its fill. -/
def State.ackedPort (s : State) : State := s.ackRecorded (ackOperand s) s.port.opb

theorem exec_sndAck_of_not_admitted {s : State} (bad : ¬ ackAdmitted s) :
    exec .sndAck s = .next (s.answered .illegal 0) := by
  rw [← ackOperandsOk_iff, Bool.not_eq_true] at bad
  exact execSndAck_of_badOperands bad

theorem exec_sndAck_of_rejected {s : State} (admitted : ackAdmitted s) (rejected : ¬ ackCovers s) :
    exec .sndAck s = .next (s.answered .ok 0) := by
  rw [← ackAccepted_iff, Bool.not_eq_true] at rejected
  simp only [exec, execSndAck, (ackOperandsOk_iff s).2 admitted, ackValue_eq_ackOperand, rejected,
    if_true, Bool.false_eq_true, if_false]
  rfl

theorem exec_sndAck_of_accepted {s : State} (admitted : ackAdmitted s) (covers : ackCovers s) :
    exec .sndAck s = .next (s.ackedPort.fill.answered .ok 1) := by
  simp only [exec, execSndAck, (ackOperandsOk_iff s).2 admitted, ackValue_eq_ackOperand,
    (ackAccepted_iff s).2 covers, windowField_of_fits admitted.2, if_true]
  rfl

/-- Every SND_ACK fails its operand checks, is rejected, or is accepted. -/
theorem exec_sndAck_cases (s : State) :
    (¬ ackAdmitted s ∧ exec .sndAck s = .next (s.answered .illegal 0)) ∨
    (ackAdmitted s ∧ ¬ ackCovers s ∧ exec .sndAck s = .next (s.answered .ok 0)) ∨
    (ackAdmitted s ∧ ackCovers s ∧
      exec .sndAck s = .next (s.ackedPort.fill.answered .ok 1)) := by
  by_cases admitted : ackAdmitted s
  · by_cases covers : ackCovers s
    · exact .inr (.inr ⟨admitted, covers, exec_sndAck_of_accepted admitted covers⟩)
    · exact .inr (.inl ⟨admitted, covers, exec_sndAck_of_rejected admitted covers⟩)
  · exact .inl ⟨admitted, exec_sndAck_of_not_admitted admitted⟩

/-- Settles O44: the rejected case alone is left. -/
theorem rejectedAckDoesNothing : Obligations.RejectedAckDoesNothing :=
  fun _ admitted rejected => exec_sndAck_of_rejected admitted rejected

/-- Settles O47: the answer alone changes unless the ack is accepted, and then the fill has its
frame. -/
theorem ackWritesOnlySender : Obligations.AckWritesOnlySender := by
  intro s
  obtain ⟨_, run⟩ | ⟨_, _, run⟩ | ⟨_, _, run⟩ := exec_sndAck_cases s
  · exact ⟨_, run, rfl⟩
  · exact ⟨_, run, rfl⟩
  · obtain ⟨st, nx, b, q, r, e, bs, out, filled⟩ := fill_frame s.ackedPort
    refine ⟨_, run, ?_⟩
    rw [filled, State.ackedPort, ackRecorded_eq]
    rfl

/-- Settles O48: the record of an entry without flags and payload, which is not queued. -/
theorem emptySegmentResult : Obligations.EmptySegmentResult := fun _ => rfl

/-! ### The entries an ack pops -/

/-- In a contiguous queue every entry behind one that ends above the ack ends above it too, so the
popped entries are all that end at or below it (10_state.md R39, 42_sender.md R129). -/
theorem unackedEntries_eq_filter (a : Nat) : ∀ (q : List Entry) (n : Nat), contiguous q n →
    unackedEntries a q = q.filter (fun e => decide (a < e.endSeq))
  | [], _, _ => rfl
  | e :: q, n, ⟨follows, chain⟩ => by
    by_cases acked : e.endSeq ≤ a
    · rw [List.filter_cons_of_neg (by simpa using acked), ← unackedEntries_eq_filter a q n chain]
      exact List.dropWhile_cons_of_pos (decide_eq_true acked)
    · have above : ∀ x ∈ e :: q, a < x.endSeq := by
        refine List.forall_mem_cons.2 ⟨Nat.lt_of_not_le acked, fun x mem => ?_⟩
        have start := queueStart_le_start chain x mem
        simp only [Entry.endSeq] at acked follows ⊢
        omega
      rw [List.filter_eq_self.2 fun x mem => decide_eq_true (above x mem)]
      exact List.dropWhile_cons_of_neg (by simpa using acked)

theorem ackedEntries_not_isEmpty_eq (a : Nat) (q : List Entry) :
    (!(ackedEntries a q).isEmpty) = decide ((unackedEntries a q).length < q.length) := by
  have length : (ackedEntries a q).length + (unackedEntries a q).length = q.length := by
    rw [← List.length_append, acked_append_unacked]
  rw [Bool.eq_iff_iff, Bool.not_eq_true', List.isEmpty_eq_false_iff, ← List.length_pos_iff,
    decide_eq_true_iff]
  omega

/-! ### The accepted ack -/

/-- Bytes in flight fall to the total length of the entries that are left (42_sender.md R129). -/
theorem SndInv.sndBif_after_acked {s : State} (h : SndInv s) (a : Nat) :
    (ackedEntries a s.queue).foldl (fun b e => BitVec.ofNat 64 (b.toNat - e.len)) s.sndBif =
      BitVec.ofNat 64 (totalLen (unackedEntries a s.queue)) := by
  have total := totalLen_acked_add_unacked a s.queue
  have inFlight := h.inFlight
  have small := s.sndBif.isLt
  apply BitVec.eq_of_toNat_eq
  rw [foldl_sub_len _ _ (by omega), BitVec.toNat_ofNat, Nat.mod_eq_of_lt (by omega)]
  omega

/-- While entries are left the timer runs, restarted or not, since it ran before
(10_state.md R44, 42_sender.md R130). -/
theorem SndInv.running_after_acked {s : State} (h : SndInv s) (a : Nat) (popped : Bool) :
    (!(unackedEntries a s.queue).isEmpty && (popped || s.tmrRunning)) =
      !(unackedEntries a s.queue).isEmpty := by
  cases queue : s.queue with
  | nil => rfl
  | cons e q =>
    have running : s.tmrRunning = true := by rw [h.running, queue]; rfl
    rw [running, Bool.or_true, Bool.and_true]

theorem elapsed_after_acked (left : List Entry) (popped : Prop) [Decidable popped] (x : Word) :
    (if left.isEmpty then 0 else if popped then 0 else x) =
      if popped ∨ left = [] then 0 else x := by
  simp only [List.isEmpty_iff, or_comm (a := popped), ite_or]

/-- Settles O45: the window record, the popping, the timer and the SYN transition, each as the
invariant lets it be written. -/
theorem acceptedAckResult : Obligations.AcceptedAckResult := by
  intro s h admitted covers left popped
  refine ⟨s.ackedPort.fill.answered .ok 0, ?before, exec_sndAck_of_accepted admitted covers⟩
  have left_eq : unackedEntries (ackOperand s) s.queue = left :=
    unackedEntries_eq_filter _ _ _ h.chain
  have popped_eq : (!(ackedEntries (ackOperand s) s.queue).isEmpty) = decide popped := by
    rw [ackedEntries_not_isEmpty_eq, left_eq]
  have inFlight := h.sndBif_after_acked (ackOperand s)
  have running := h.running_after_acked (ackOperand s) (decide popped)
  rw [left_eq] at inFlight running
  rw [← exec_sndFill, State.ackedPort, ackRecorded_eq]
  simp only [popped_eq, inFlight, left_eq, running, decide_eq_true_eq,
    elapsed_after_acked left popped]

/-! ### An ack that pops nothing -/

/-- With nothing popped and something outstanding the timer and the queue stay (42_sender.md R129,
R130). -/
theorem ackRecorded_of_none_popped {s : State} {a : Nat} (outstanding : s.queue ≠ [])
    (unpopped : ackedEntries a s.queue = []) (window : Word) :
    s.ackRecorded a window = { s with
      sndWindow := window
      sndState := if s.sndState = .synSent ∧ 1 ≤ a then .synAcked else s.sndState } := by
  have left := unackedEntries_of_ackedEntries_eq_nil unpopped
  have nonempty : s.queue.isEmpty = false := List.isEmpty_eq_false_iff.2 outstanding
  rw [ackRecorded_eq]
  simp [unpopped, left, nonempty]

/-- A fill writes neither the window nor what only an expiry and an ack write (42_sender.md R119). -/
theorem fill_keeps_window_and_backoff (s : State) :
    s.fill.sndWindow = s.sndWindow ∧ s.fill.tmrRto = s.tmrRto ∧
      s.fill.tmrConsec = s.tmrConsec := by
  obtain ⟨_, _, _, _, _, _, _, _, filled⟩ := fill_frame s
  rw [filled]
  exact ⟨rfl, rfl, rfl⟩

/-- A running timer does not start again on a transmission (42_sender.md R118). -/
theorem emitNew_of_running {s : State} (running : s.tmrRunning = true) (syn fin : Bool)
    (payload : List Byte) :
    (s.emitNew syn fin payload).tmrRunning = true ∧
      (s.emitNew syn fin payload).tmrElapsed = s.tmrElapsed := by
  rw [emitNew_eq]
  exact ⟨rfl, if_pos running⟩

theorem fill_of_running {s : State} (running : s.tmrRunning = true) :
    s.fill.tmrRunning = true ∧ s.fill.tmrElapsed = s.tmrElapsed := by
  cases phase : s.sndState with
  | closed =>
    rw [fill_of_closed phase]
    exact emitNew_of_running running true false []
  | synSent => rw [fill_of_waiting (.inl phase)]; exact ⟨running, rfl⟩
  | finSent => rw [fill_of_waiting (.inr phase)]; exact ⟨running, rfl⟩
  | synAcked =>
    rw [fill_of_synAcked phase]
    refine fillLoop_induct (P := fun t => t.tmrRunning = true ∧ t.tmrElapsed = s.tmrElapsed)
      ?turn _ s phase ⟨running, rfl⟩
    intro t n fin ⟨running, elapsed⟩ _ _
    obtain ⟨still, same⟩ :=
      emitNew_of_running (s := t.srcConsume n) running false fin (t.srcFront n)
    rw [sendSegment_eq]
    exact ⟨still, same.trans elapsed⟩

/-- Settles O46: nothing is popped, and the fill finds the timer running. -/
theorem duplicateAckLeavesTimer : Obligations.DuplicateAckLeavesTimer := by
  intro s e q h admitted covers queue below
  have outstanding : s.queue ≠ [] := queue ▸ List.cons_ne_nil e q
  have unpopped : ackedEntries (ackOperand s) s.queue = [] := by
    rw [queue]
    exact List.takeWhile_cons_of_neg (by simpa using below)
  have running : s.tmrRunning = true := by simpa [h.running] using outstanding
  have acked := ackRecorded_of_none_popped outstanding unpopped s.port.opb
  obtain ⟨still, elapsed⟩ := fill_of_running (s := s.ackedPort)
    (by rw [State.ackedPort, acked]; exact running)
  obtain ⟨window, rto, consec⟩ := fill_keeps_window_and_backoff s.ackedPort
  obtain ⟨sent, order⟩ := fill_sentInOrder s.ackedPort
  have queued := order.queue
  simp only [State.ackedPort, acked] at still elapsed window rto consec queued
  refine ⟨_, exec_sndAck_of_accepted admitted covers, ?_⟩
  simp only [State.ackedPort, acked]
  exact ⟨still.trans running.symm, elapsed, rto, consec, window, sent, queued⟩

end Sys2Proof.Machine
end

section
/-! The transitions of `snd_state` (42_sender.md R132): a fill sends the SYN or the FIN, an accepted ack
covers the SYN, and no other command writes it. -/

namespace Sys2Proof.Machine

open Sys2Proof

/-! ### The transitions of a fill -/

/-- The last record of the segment output is a new segment with FIN. -/
def State.lastIsFin (s : State) : Prop :=
  ∃ r, s.segOut.getLast? = some r ∧ r.kind = .new ∧ r.fin = true

theorem sendSegment_fin (s : State) (n : Nat) :
    (s.sendSegment n true).sndState = .finSent ∧ (s.sendSegment n true).lastIsFin := by
  rw [sendSegment_eq, emitNew_eq]
  exact ⟨rfl, _, List.getLast?_concat, rfl, rfl⟩

/-- The SYN that a fill in CLOSED sends (42_sender.md R120). -/
def State.synRecord (s : State) : Record :=
  ⟨.new, wrap s.sndNext s.cfg.isn, s.sndNext, true, false, [], 1, false, false⟩

theorem fill_in_closed {s : State} (closed : s.sndState = .closed) :
    s.fill.sndState = .synSent ∧ s.fill.segOut = s.segOut ++ [s.synRecord] := by
  rw [fill_of_closed closed, emitNew_eq]
  exact ⟨rfl, rfl⟩

theorem fill_in_synAcked {s : State} (acked : s.sndState = .synAcked) :
    s.fill.sndState = .synAcked ∨ (s.fill.sndState = .finSent ∧ s.fill.lastIsFin) := by
  rw [fill_of_synAcked acked]
  refine fillLoop_induct (P := fun t => t.sndState = .synAcked ∨
    (t.sndState = .finSent ∧ t.lastIsFin)) ?turn _ s acked (.inl acked)
  intro t n fin _ acked _
  cases fin with
  | true => exact .inr (sendSegment_fin t n)
  | false => exact .inl ((sendSegment_sndState t n).trans acked)

/-- The rows of R132 that a fill takes. -/
theorem fill_transitions (s : State) :
    s.fill.sndState = s.sndState ∨
    (s.sndState = .closed ∧ s.fill.sndState = .synSent ∧
      s.fill.segOut = s.segOut ++ [s.synRecord]) ∨
    (s.sndState = .synAcked ∧ s.fill.sndState = .finSent ∧ s.fill.lastIsFin) := by
  cases phase : s.sndState with
  | closed => exact .inr (.inl ⟨rfl, fill_in_closed phase⟩)
  | synSent => exact .inl (by rw [fill_of_waiting (.inl phase), phase])
  | finSent => exact .inl (by rw [fill_of_waiting (.inr phase), phase])
  | synAcked => exact (fill_in_synAcked phase).imp_right fun fin => .inr ⟨rfl, fin⟩

/-! ### The transitions of an accepted ack -/

/-- An accepted ack sends nothing before its fill, and moves `snd_state` only where it covers the SYN
(42_sender.md R130). -/
theorem ackedPort_transition (s : State) :
    s.ackedPort.segOut = s.segOut ∧ s.ackedPort.synRecord = s.synRecord ∧
      s.ackedPort.sndState =
        if s.sndState = .synSent ∧ 1 ≤ ackOperand s then .synAcked else s.sndState := by
  rw [State.ackedPort, ackRecorded_eq]
  exact ⟨rfl, rfl, rfl⟩

/-- The rows of R132 that an accepted ack takes: its own, or those of its fill. -/
theorem ackedPort_fill_transitions (s : State) :
    s.ackedPort.fill.sndState = s.sndState ∨
    (s.sndState = .closed ∧ s.ackedPort.fill.sndState = .synSent ∧
      s.ackedPort.fill.segOut = s.segOut ++ [s.synRecord]) ∨
    (s.sndState = .synSent ∧ 1 ≤ ackOperand s ∧
      (s.ackedPort.fill.sndState = .synAcked ∨ s.ackedPort.fill.sndState = .finSent)) ∨
    (s.sndState = .synAcked ∧ s.ackedPort.fill.sndState = .finSent ∧
      s.ackedPort.fill.lastIsFin) := by
  obtain ⟨out, record, state⟩ := ackedPort_transition s
  by_cases syn : s.sndState = .synSent ∧ 1 ≤ ackOperand s
  · rw [if_pos syn] at state
    exact .inr (.inr (.inl ⟨syn.1, syn.2, (fill_in_synAcked state).imp_right And.left⟩))
  · rw [if_neg syn] at state
    obtain same | sent | fin := fill_transitions s.ackedPort
    · exact .inl (same.trans state)
    · rw [state, out, record] at sent
      exact .inr (.inl sent)
    · rw [state] at fin
      exact .inr (.inr (.inr fin))

/-! ### The other commands -/

/-- The outcome has the sender's state of `s`. -/
def KeepsSndState (s : State) (o : Host.Outcome State Fault Refusal) : Prop :=
  ∀ t, o = .next t → t.sndState = s.sndState

theorem keepsSndState_respondOk {s u : State} (same : u.sndState = s.sndState) (res : Word) :
    KeepsSndState s (respondOk u res) := by
  rintro t ⟨⟩
  exact same

theorem keepsSndState_raiseIllegal (s : State) : KeepsSndState s (raiseIllegal s) := by
  rintro t ⟨⟩
  rfl

theorem KeepsSndState.ite {s : State} {p : Prop} [Decidable p]
    {o o' : Host.Outcome State Fault Refusal} (yes : KeepsSndState s o)
    (no : KeepsSndState s o') : KeepsSndState s (if p then o else o') := by
  split
  · exact yes
  · exact no

theorem execRdreg_keepsSndState (regno : BitVec 8) (s : State) :
    KeepsSndState s (execRdreg regno s) := by
  unfold execRdreg
  split
  · exact keepsSndState_respondOk rfl _
  · exact keepsSndState_raiseIllegal s

theorem execSndTick_keepsSndState (s : State) : KeepsSndState s (execSndTick s) := by
  refine .ite ?running (keepsSndState_respondOk rfl _)
  cases s.queue with
  | nil => exact keepsSndState_respondOk rfl _
  | cons front q =>
    refine .ite (keepsSndState_respondOk rfl _) (keepsSndState_respondOk ?_ _)
    rw [State.expire, backoff_eq]
    rfl

theorem execRaInsert_keepsSndState (last : Bool) (s : State) :
    KeepsSndState s (execRaInsert last s) := by
  refine .ite (.ite (keepsSndState_respondOk rfl _) (keepsSndState_respondOk ?_ _))
    (keepsSndState_raiseIllegal s)
  rw [insert_eq_withReassemblerOf]
  rfl

/-- No command but SND_FILL and SND_ACK writes `snd_state`. -/
theorem exec_keepsSndState {i : Instr} (s : State) (notFill : i ≠ .sndFill)
    (notAck : i ≠ .sndAck) : KeepsSndState s (exec i s) := by
  cases i with
  | nop => exact keepsSndState_respondOk rfl 0
  | sncWrap => exact .ite (keepsSndState_respondOk rfl _) (keepsSndState_raiseIllegal s)
  | sncUnwrap => exact .ite (keepsSndState_respondOk rfl _) (keepsSndState_raiseIllegal s)
  | raInsert last => exact execRaInsert_keepsSndState last s
  | sndFill => exact absurd rfl notFill
  | sndAck => exact absurd rfl notAck
  | sndTick => exact execSndTick_keepsSndState s
  | sndEmpty => exact keepsSndState_respondOk rfl 0
  | rdreg regno => exact execRdreg_keepsSndState regno s

/-! ### Every command -/

/-- Settles O49: SND_FILL takes the rows of a fill, an accepted SND_ACK its own and those of its fill,
and nothing else takes any. -/
theorem senderStateTransitions : Obligations.SenderStateTransitions := by
  intro i s t run
  by_cases isFill : i = .sndFill
  · subst isFill
    obtain rfl := Host.Outcome.next.inj run
    obtain same | ⟨closed, sent, out⟩ | ⟨acked, finSent, fin⟩ := fill_transitions s
    · exact .inl same
    · exact .inr (.inl ⟨closed, sent, .inl rfl, out⟩)
    · exact .inr (.inr (.inr ⟨acked, finSent, .inl rfl, fin⟩))
  by_cases isAck : i = .sndAck
  · subst isAck
    obtain ⟨_, answers⟩ | ⟨_, _, answers⟩ | ⟨admitted, covers, answers⟩ := exec_sndAck_cases s
    all_goals obtain rfl := Host.Outcome.next.inj (run.symm.trans answers)
    · exact .inl rfl
    · exact .inl rfl
    · obtain same | ⟨closed, sent, out⟩ | ⟨synSent, one, moved⟩ | ⟨acked, finSent, fin⟩ :=
        ackedPort_fill_transitions s
      · exact .inl same
      · exact .inr (.inl ⟨closed, sent, .inr ⟨rfl, admitted, covers⟩, out⟩)
      · exact .inr (.inr (.inl ⟨synSent, moved, rfl, admitted, covers, one⟩))
      · exact .inr (.inr (.inr ⟨acked, finSent, .inr ⟨rfl, admitted, covers⟩, fin⟩))
  exact .inl (exec_keepsSndState s isFill isAck t run)

end Sys2Proof.Machine
end

section
/-! SND_TICK (43_timer.md R134): one equation per branch, the expiry as one whole next state, and
from these the laws of the timer. -/

namespace Sys2Proof.Machine

open Sys2Proof

/-! ### The branches of SND_TICK -/

theorem toNat_sat64 (x : Nat) : (sat64 x).toNat = min x maxWord :=
  toNat_ofNat_of_le_maxWord (Nat.min_le_right x maxWord)

theorem toNat_sat64_of_lt {x : Nat} (small : x < 2 ^ 64) : (sat64 x).toNat = x := by
  rw [toNat_sat64, Nat.min_eq_left (Nat.le_sub_one_of_lt small)]

theorem exec_sndTick_of_stopped {s : State} (stopped : s.tmrRunning = false) :
    exec .sndTick s = .next (s.answered .ok 0) := by
  show execSndTick s = _
  rw [execSndTick, stopped]
  rfl

theorem exec_sndTick_of_empty {s : State} (running : s.tmrRunning = true) (empty : s.queue = []) :
    exec .sndTick s = .next (s.timerStop.answered .ok 0) := by
  show execSndTick s = _
  rw [execSndTick, running, empty]
  rfl

/-- With something outstanding, the accumulated time decides (43_timer.md R136, R137). -/
theorem exec_sndTick_of_outstanding {s : State} {front : Entry} {rest : List Entry}
    (running : s.tmrRunning = true) (outstanding : s.queue = front :: rest) :
    exec .sndTick s =
      if min (s.tmrElapsed.toNat + s.port.opa.toNat) maxWord < s.tmrRto.toNat then
        .next ((s.accumulate s.port.opa).answered .ok 0)
      else .next (((s.accumulate s.port.opa).expire front).answered .ok 1) := by
  show execSndTick s = _
  rw [execSndTick, running, outstanding]
  simp only [accumulate_tmrElapsed, accumulate_tmrRto, toNat_sat64]
  rfl

/-- All that an expiry does; the accumulated time itself is lost (43_timer.md R138 to R140). -/
theorem expire_accumulate_eq (s : State) (elapsed : Word) (front : Entry) :
    (s.accumulate elapsed).expire front =
      { s with
        segOut := s.segOut ++ [recordOf .retx s.cfg.isn front]
        tmrRto := if s.sndWindow ≠ 0 ∨ front.syn = true then sat64 (2 * s.tmrRto.toNat)
          else s.tmrRto
        tmrConsec := if s.sndWindow ≠ 0 ∨ front.syn = true then sat64 (s.tmrConsec.toNat + 1)
          else s.tmrConsec
        tmrElapsed := 0 } := by
  rw [State.expire, backoff_eq]
  rfl

/-- An expiry that backs off, as one whole next state (43_timer.md R139). -/
theorem exec_sndTick_of_backsOff {s : State} {front : Entry} {rest : List Entry}
    (running : s.tmrRunning = true) (queue : s.queue = front :: rest)
    (reached : s.tmrRto.toNat ≤ min (s.tmrElapsed.toNat + s.port.opa.toNat) maxWord)
    (backsOff : s.sndWindow ≠ 0 ∨ front.syn = true) :
    exec .sndTick s = .next { s with
      segOut := s.segOut ++ [recordOf .retx s.cfg.isn front]
      tmrRto := sat64 (2 * s.tmrRto.toNat)
      tmrConsec := sat64 (s.tmrConsec.toNat + 1)
      tmrElapsed := 0
      answer := some ⟨.ok, 1⟩ } := by
  rw [exec_sndTick_of_outstanding running queue, if_neg (Nat.not_lt.2 reached),
    expire_accumulate_eq, if_pos backsOff, if_pos backsOff]
  rfl

/-- SND_TICK finds the timer stopped or nothing queued, stays below the timeout, or expires. -/
theorem exec_sndTick_cases (s : State) :
    exec .sndTick s = .next (s.answered .ok 0) ∨
    exec .sndTick s = .next (s.timerStop.answered .ok 0) ∨
    exec .sndTick s = .next ((s.accumulate s.port.opa).answered .ok 0) ∨
    ∃ front, exec .sndTick s = .next (((s.accumulate s.port.opa).expire front).answered .ok 1) := by
  cases running : s.tmrRunning with
  | false => exact .inl (exec_sndTick_of_stopped running)
  | true =>
    cases queue : s.queue with
    | nil => exact .inr (.inl (exec_sndTick_of_empty running queue))
    | cons front rest =>
      rw [exec_sndTick_of_outstanding running queue]
      split
      · exact .inr (.inr (.inl rfl))
      · exact .inr (.inr (.inr ⟨front, rfl⟩))

/-- Settles O51: the branch of the stopped timer. -/
theorem tickWhileStopped : Obligations.TickWhileStopped := fun _ => exec_sndTick_of_stopped

/-- Settles O52: the branch below the timeout. -/
theorem tickBelowTimeout : Obligations.TickBelowTimeout := by
  intro s running outstanding below
  obtain ⟨front, rest, queue⟩ := List.exists_cons_of_ne_nil outstanding
  rw [exec_sndTick_of_outstanding running queue, if_pos below]
  rfl

/-- Settles O53: the branch of the expiry; RETX and NEW records differ in their kind only. -/
theorem tickExpiry : Obligations.TickExpiry := by
  intro s front rest running queue reached
  rw [exec_sndTick_of_outstanding running queue, if_neg (Nat.not_lt.2 reached),
    expire_accumulate_eq]
  rfl

/-- Settles O54: the branch of the empty queue. -/
theorem tickWithEmptyQueue : Obligations.TickWithEmptyQueue := fun _ => exec_sndTick_of_empty

/-- Settles O57: no branch writes anything but the timer, the segment output and the answer. -/
theorem tickWritesOnlyTimer : Obligations.TickWritesOnlyTimer := by
  intro s
  obtain run | run | run | ⟨front, run⟩ := exec_sndTick_cases s
  · exact ⟨_, run, rfl⟩
  · exact ⟨_, run, rfl⟩
  · exact ⟨_, run, rfl⟩
  · refine ⟨_, run, ?_⟩
    rw [expire_accumulate_eq]
    rfl

/-! ### The abort threshold -/

theorem getLsbD_two_flagWord (b0 b1 b2 : Bool) : (flagWord b0 b1 b2).getLsbD 2 = b2 := by
  revert b0 b1 b2
  decide

/-- Bit 2 of SND_STATUS is RETX_EXCEEDED (10_state.md R36, R47). -/
theorem getLsbD_two_sndStatus_iff (s : State) :
    s.sndStatus.getLsbD 2 = true ↔ s.cfg.maxRetx.toNat < s.tmrConsec.toNat := by
  rw [State.sndStatus, getLsbD_two_flagWord, State.retxExceeded, decide_eq_true_iff]

/-- Settles O56: the count after the expiry is one higher, so it is above the maximum exactly when
the count before had reached it. -/
theorem retxExceededThreshold : Obligations.RetxExceededThreshold := by
  intro s front rest running queue backsOff small reached
  refine ⟨_, exec_sndTick_of_backsOff running queue reached backsOff, ?_⟩
  rw [getLsbD_two_sndStatus_iff, toNat_sat64_of_lt small, Nat.lt_succ_iff]

/-! ### Exponential backoff -/

/-- `t` follows `s` by one expiry that backs off without saturating (43_timer.md R143): the timer
runs on and the queue and the window stand, so that the next may follow. -/
structure BacksOffTo (s t : State) : Prop where
  running : t.tmrRunning = true
  queue : t.queue = s.queue
  window : t.sndWindow = s.sndWindow
  rto : t.tmrRto.toNat = 2 * s.tmrRto.toNat
  consec : t.tmrConsec.toNat = s.tmrConsec.toNat + 1
  sent : t.segOut.length = s.segOut.length + 1

/-- A tick of the timeout expires and backs off, whatever has accumulated before. -/
theorem exec_sndTick_backsOffTo {s : State} (running : s.tmrRunning = true)
    (outstanding : s.queue ≠ []) (window : s.sndWindow ≠ 0)
    (rtoSmall : 2 * s.tmrRto.toNat < 2 ^ 64) (consecSmall : s.tmrConsec.toNat + 1 < 2 ^ 64) :
    ∃ t, exec .sndTick (withOpa s s.tmrRto) = .next t ∧ BacksOffTo s t := by
  obtain ⟨front, rest, queue⟩ := List.exists_cons_of_ne_nil outstanding
  have reached : s.tmrRto.toNat ≤ min (s.tmrElapsed.toNat + s.tmrRto.toNat) (2 ^ 64 - 1) :=
    le_min (Nat.le_add_left _ _) (Nat.le_sub_one_of_lt s.tmrRto.isLt)
  refine ⟨_, exec_sndTick_of_backsOff (s := withOpa s s.tmrRto) running queue reached
    (.inl window), ?_⟩
  exact {
    running := running
    queue := rfl
    window := rfl
    rto := toNat_sat64_of_lt rtoSmall
    consec := toNat_sat64_of_lt consecSmall
    sent := List.length_append }

/-- Settles O55: three expiries in a row, each from the state the one before leaves. -/
theorem backoffDoublesThreeTimes : Obligations.BackoffDoublesThreeTimes := by
  intro s front rest running queue window _ rtoSmall consecSmall
  have outstanding : s.queue ≠ [] := by simp [queue]
  obtain ⟨t1, run1, h1⟩ := exec_sndTick_backsOffTo running outstanding window (by omega)
    (by omega)
  have rto1 := h1.rto
  have consec1 := h1.consec
  obtain ⟨t2, run2, h2⟩ := exec_sndTick_backsOffTo h1.running (h1.queue ▸ outstanding)
    (h1.window ▸ window) (by omega) (by omega)
  have rto2 : t2.tmrRto.toNat = 4 * s.tmrRto.toNat := by rw [h2.rto]; omega
  have consec2 : t2.tmrConsec.toNat = s.tmrConsec.toNat + 2 := by rw [h2.consec, consec1]
  have queue2 : t2.queue = s.queue := h2.queue.trans h1.queue
  have window2 : t2.sndWindow = s.sndWindow := h2.window.trans h1.window
  obtain ⟨t3, run3, h3⟩ := exec_sndTick_backsOffTo h2.running (queue2 ▸ outstanding)
    (window2 ▸ window) (by omega) (by omega)
  have rto3 : t3.tmrRto.toNat = 8 * s.tmrRto.toNat := by rw [h3.rto]; omega
  have consec3 : t3.tmrConsec.toNat = s.tmrConsec.toNat + 3 := by rw [h3.consec, consec2]
  have sent3 : t3.segOut.length = s.segOut.length + 3 := by rw [h3.sent, h2.sent, h1.sent]
  exact ⟨t1, t2, t3, run1, rto1, consec1, run2, rto2, consec2, run3, rto3, consec3,
    h3.queue.trans queue2, sent3⟩

end Sys2Proof.Machine
end

section
/-! NOP (44_control.md R146): `respond(OK, 0)` on the state the command started in. -/

namespace Sys2Proof.Machine

open Sys2Proof

theorem exec_nop (s : State) : exec .nop s = respondOk s 0 := rfl

/-- Settles O58: NOP is the bare answer, and an answer drives only STATUS and RES. -/
theorem nopResult : Obligations.NopResult := by
  intro s
  calc exec .nop s
      = respondOk s 0 := exec_nop s
    _ = .next { s with answer := some ⟨.ok, 0⟩ } := respondOk_eq s 0

end Sys2Proof.Machine
end

section
/-! Exceptions (60_exceptions.md): the answer ILLEGAL, which a command gets for a reserved word or
for operands that fail its checks and for nothing else (R150, R154), and the idle block (R161). -/

namespace Sys2Proof.Machine

open Sys2Proof

/-! ### The idle block -/

theorem step_of_idle {s : State} (idle : s.host = []) : step s = .next s := by
  simp only [step, hostStep, idle]

/-- Settles O7: with an empty host list a step is the idle one. -/
theorem idleKeepsState : Obligations.IdleKeepsState := fun _ => step_of_idle

/-! ### A command's own operand checks -/

/-- The operand checks of a command, those its meaning makes first (30_encoding.md R79, R80). -/
def operandsOk (i : Instr) (p : Params) (c : Command) : Bool :=
  match i with
  | .sncWrap => wrapOperandsOk c
  | .sncUnwrap => unwrapOperandsOk c
  | .raInsert _ => insertOperandsOk p c
  | .sndAck => ackOperandsOk p c
  | .nop | .sndFill | .sndTick | .sndEmpty | .rdreg _ => true

/-- The opcode in the word selects the check that `badOperands` asks for. -/
theorem operandsOk_eq_false_iff {i : Instr} (p : Params) {c : Command}
    (op : c.cmd.extractLsb' 0 8 = opcode i) : operandsOk i p c = false ↔ badOperands p c := by
  unfold badOperands
  rw [op]
  cases i with
  | sncWrap =>
    rw [operandsOk, wrapOperandsOk, fitsIn_eq_false_iff]
    simp [opcode]
  | sncUnwrap =>
    rw [operandsOk, unwrapOperandsOk_eq_false_iff]
    simp [opcode]
  | raInsert last =>
    rw [operandsOk, insertOperandsOk_eq_false_iff]
    simp [opcode, maxWord]
  | sndAck =>
    rw [operandsOk, ackOperandsOk_eq_false_iff]
    simp [opcode]
  | nop | sndFill | sndTick | sndEmpty | rdreg _ => simp [operandsOk, opcode]

theorem exec_of_badOperands {i : Instr} {s : State}
    (bad : operandsOk i s.params s.port = false) : exec i s = raiseIllegal s := by
  cases i with
  | sncWrap => exact execSncWrap_of_badOperands bad
  | sncUnwrap => exact execSncUnwrap_of_badOperands bad
  | raInsert last => exact execRaInsert_of_badOperands bad
  | sndAck => exact execSndAck_of_badOperands bad
  | nop | sndFill | sndTick | sndEmpty | rdreg _ => cases bad

/-! ### A command that passes them -/

theorem execRdreg_of_listed {regno : BitVec 8} (s : State) (listed : regno ∈ definedRegnos) :
    ∃ r, exec (.rdreg regno) s = respondOk s (s.readReg r) := by
  have named : regOfNumber? regno ≠ none := fun none => regOfNumber_eq_none_iff.1 none listed
  obtain ⟨r, found⟩ := Option.ne_none_iff_exists'.1 named
  exact ⟨r, by simp only [exec, execRdreg, found]⟩

/-- No check comes after the operand checks (60_exceptions.md R154): whatever the command then finds
in the state, it answers OK. -/
theorem exec_of_goodOperands {i : Instr} {s : State} (wf : i.wellFormed = true)
    (good : operandsOk i s.params s.port = true) :
    ∃ (u : State) (res : Word), exec i s = .next (u.answered .ok res) := by
  cases i with
  | nop => exact ⟨_, _, rfl⟩
  | sncWrap => exact ⟨_, _, execSncWrap_of_goodOperands good⟩
  | sncUnwrap => exact ⟨_, _, execSncUnwrap_of_goodOperands good⟩
  | raInsert last =>
    have admitted := (insertOperandsOk_iff s).1 good
    obtain ⟨bad, _⟩ | ⟨_, _, run⟩ | ⟨_, _, run⟩ := exec_raInsert_cases last s
    · exact absurd admitted bad
    · exact ⟨_, _, run⟩
    · exact ⟨_, _, run⟩
  | sndFill => exact ⟨_, _, exec_sndFill s⟩
  | sndAck =>
    have admitted := (ackOperandsOk_iff s).1 good
    obtain ⟨bad, _⟩ | ⟨_, _, run⟩ | ⟨_, _, run⟩ := exec_sndAck_cases s
    · exact absurd admitted bad
    · exact ⟨_, _, run⟩
    · exact ⟨_, _, run⟩
  | sndTick =>
    obtain run | run | run | ⟨_, run⟩ := exec_sndTick_cases s
    · exact ⟨_, _, run⟩
    · exact ⟨_, _, run⟩
    · exact ⟨_, _, run⟩
    · exact ⟨_, _, run⟩
  | sndEmpty => exact ⟨_, _, rfl⟩
  | rdreg regno =>
    obtain ⟨r, run⟩ := execRdreg_of_listed s (List.contains_iff_mem.1 wf)
    exact ⟨_, _, run⟩

/-! ### The command transaction -/

theorem runCommand_of_decode_error {s : State} {c : Command} {e : DecodeError} (h : HostInv s)
    (reserved : decode c.cmd = .error e) : runCommand c s = raiseIllegal (s.withPort c) := by
  simp only [runCommand, h.legal, h.sinkFits, reserved, if_true]

/-- A command is bad and raises ILLEGAL on the state it started in, or is good and answers OK. -/
theorem runCommand_answers {s : State} (c : Command) (h : HostInv s) :
    ((reservedWord c.cmd ∨ badOperands s.params c) ∧
      runCommand c s = .next ((s.withPort c).answered .illegal 0)) ∨
    (¬ (reservedWord c.cmd ∨ badOperands s.params c) ∧
      ∃ (u : State) (res : Word), runCommand c s = .next (u.answered .ok res)) := by
  have rejects := decoderRejectsReservedWords c.cmd
  cases decoded : decode c.cmd with
  | error e =>
    exact .inl ⟨.inl (rejects.1 ⟨e, decoded⟩), runCommand_of_decode_error h decoded⟩
  | ok i =>
    obtain ⟨wf, word⟩ := wellFormed_and_encode_of_decode decoded
    have op : c.cmd.extractLsb' 0 8 = opcode i := word ▸ opcodeByte_encode i
    have bad_iff := operandsOk_eq_false_iff s.params op
    have notReserved : ¬ reservedWord c.cmd := by simp [← rejects, decoded]
    rw [runCommand_of_decode_ok h decoded]
    cases ok : operandsOk i s.params c with
    | false => exact .inl ⟨.inr (bad_iff.1 ok), exec_of_badOperands (s := s.withPort c) ok⟩
    | true =>
      have notBad : ¬ badOperands s.params c := by simp [← bad_iff, ok]
      exact .inr ⟨not_or.2 ⟨notReserved, notBad⟩,
        exec_of_goodOperands (s := s.withPort c) wf ok⟩

/-- Settles O6: the two answers a command transaction can have, told apart by their STATUS. -/
theorem illegalExactlyForBadCommands : Obligations.IllegalExactlyForBadCommands := by
  intro s c rest host duties
  have taken : HostInv { s with host := rest } := duties.of_eq rfl rfl rfl
  rw [step_of_host host]
  obtain ⟨bad, run⟩ | ⟨good, u, res, run⟩ := runCommand_answers c taken
  · exact ⟨_, ⟨.illegal, 0⟩, run, rfl, iff_of_true rfl bad, fun _ => ⟨rfl, rfl⟩⟩
  · exact ⟨_, ⟨.ok, res⟩, run, rfl, iff_of_false nofun good, nofun⟩

end Sys2Proof.Machine
end

section
/-! The boot sequence (70_reset_and_hazards.md R166): reset is taken over fresh collaborators, and the
reset state of the configuration is what that leaves. -/

namespace Sys2Proof.Machine

open Sys2Proof

/-- Fresh collaborators and a reset of the block leave nothing of the state before, except the
parameters, the ports and the host's list (10_state.md R51). -/
theorem resetBlock_of_freshCollaborators (s : State) (cfg : Config) (cap : Nat)
    (initial : List Byte) :
    State.resetBlock { s with sink := ⟨[], 0, cap⟩, source := ⟨initial, false⟩, segOut := [] } cfg =
      { State.resetWith s.params cfg cap with
        source := ⟨initial, false⟩, port := s.port, host := s.host } := rfl

theorem takeBoot_of_legal {s : State} {cfg : Config} {cap : Nat} (initial : List Byte)
    (legal : configLegal s.params cfg = true) (fits : cfg.capacity.toNat ≤ cap) :
    takeBoot cfg cap initial s =
      .next { State.resetWith s.params cfg cap with
        source := ⟨initial, false⟩, port := s.port, host := s.host } := by
  rw [← resetBlock_of_freshCollaborators]
  exact takeReset_of_legal legal (decide_eq_true fits)

/-- Settles O9: the step is the boot sequence, taken with the event off the host's list. -/
theorem bootStartsEverything : Obligations.BootStartsEverything :=
  fun _ _ _ initial _ host legal fits =>
    (step_of_host host).trans (takeBoot_of_legal initial legal fits)

end Sys2Proof.Machine
end
